-- ==== Sys2Proof/Word.lean ====
section
/-! DEFINITION. The widths of the machine: bytes, 16-bit words and register numbers (00_scope.md R3 to R6). -/

namespace Sys2Proof

/-- One byte of memory: what one address names (R6), and the width of the only immediate (R54). -/
abbrev Byte := BitVec 8

/-- A register, an address, the program counter or an instruction: each is 16 bits wide (R3, R5, R6, R14). -/
abbrev Word := BitVec 16

/-- A register number: the value of a 3-bit field, 0 to 7 (R4, R10). -/
abbrev Reg := Fin 8

end Sys2Proof
end

