-- ==== Sys2Proof/Config.lean ====
section
/-! DEFINITION. The parameters of 00_scope.md R7, each a field of `Config`, and the free value of the `any` readings.
The values the model starts with stand in Machine/Params.lean. -/

namespace Sys2Proof

/-- BYTE_ORDER: which byte of a 16-bit memory word lies at the lower address (R33). -/
inductive ByteOrder where
  | big
  | little
  deriving DecidableEq, Repr

/-- BRANCH_BASE: the constant added to the branch's own address, 0 or 2 (R110). -/
inductive BranchBase where
  | zero
  | two
  deriving DecidableEq, Repr

/-- BRANCH_SCALE: the multiplier of the sign-extended branch immediate, 1 or 2 (R110). -/
inductive BranchScale where
  | one
  | two
  deriving DecidableEq, Repr

/-- LLI_OTHER, LUI_OTHER, LBU_OTHER: what happens to the byte of the destination the instruction does not name
(R91, R94, R104). -/
inductive OtherByte where
  | preserve
  | zero
  | any
  deriving DecidableEq, Repr

/-- XORI_EXT: how `xori` widens its immediate (R92). -/
inductive Extension where
  | zero
  | sign
  deriving DecidableEq, Repr

/-- ON_ILLEGAL, ON_MISALIGNED_DATA, ON_ODD_PC: the outcome of a case the source leaves without one. R7 gives each
parameter the single value `fault`. -/
inductive OnUndefined where
  | fault
  deriving DecidableEq, Repr

/-- A run of consecutive byte addresses: `size` of them from `base` on. -/
structure Region where
  base : Nat
  size : Nat
  deriving DecidableEq, Repr

/-- The parameters of R7 (XLEN, NREG, ILEN and ALEN are fixed there, and stand in Word.lean). -/
structure Config where
  /-- BYTE_ORDER, one setting for data and for instruction fetch (R33). -/
  byteOrder : ByteOrder
  /-- MEM_MAP, the set of backed addresses, as a list of regions (R31). -/
  memMap : List Region
  /-- BRANCH_BASE (R110). -/
  branchBase : BranchBase
  /-- BRANCH_SCALE (R110). -/
  branchScale : BranchScale
  /-- LLI_OTHER (R91). -/
  lliOther : OtherByte
  /-- LUI_OTHER (R94). -/
  luiOther : OtherByte
  /-- LBU_OTHER (R104). -/
  lbuOther : OtherByte
  /-- XORI_EXT (R92). -/
  xoriExt : Extension
  /-- REG0_ZERO, whether register 0 is hardwired to zero (R12). -/
  reg0Zero : Bool
  /-- ON_ILLEGAL (R121). -/
  onIllegal : OnUndefined
  /-- ON_MISALIGNED_DATA (R122). -/
  onMisalignedData : OnUndefined
  /-- ON_ODD_PC (R123). -/
  onOddPc : OnUndefined
  /-- RESET_PC, an even address (R22). -/
  resetPc : Word
  deriving DecidableEq, Repr

/-- The arbitrary byte of the `any` readings, "chosen afresh at each execution" (R91, R94, R104): the n-th draw.
A FREE VALUE: it has no body, so nothing can be proved of it (assumption log 20). -/
opaque Config.freeByte : Nat → Byte

end Sys2Proof
end

