-- ==== Sys2Proof/Syntax.lean ====
section
/-! DEFINITION. The 27 instructions of 00_scope.md R2, in the order of the opcode map (30_encoding.md R57), and their
names. Register operands and immediates have exactly the widths of their fields (R52, R53), so that every term of
`Instr` is an instruction the encoding admits. -/

namespace Sys2Proof

/-- The instruction set. `rd` is the register of field `ddd`, `rs` of field `sss`, `imm` the field `xxxxxxxx`.
`nop` has no operand and `j` only `imm`: their other bits are ignored (R55). -/
inductive Instr where
  | nop
  | mov (rd rs : Reg)
  | not (rd rs : Reg)
  | xor (rd rs : Reg)
  | add (rd rs : Reg)
  | sub (rd rs : Reg)
  | sl8 (rd rs : Reg)
  | sr8 (rd rs : Reg)
  | sl (rd rs : Reg)
  | sr (rd rs : Reg)
  | and (rd rs : Reg)
  | or (rd rs : Reg)
  | sw (rd rs : Reg)
  | lw (rd rs : Reg)
  | sbu (rd rs : Reg)
  | lbu (rd rs : Reg)
  | lli (rd : Reg) (imm : Byte)
  | xori (rd : Reg) (imm : Byte)
  | addi (rd : Reg) (imm : Byte)
  | lui (rd : Reg) (imm : Byte)
  | andi (rd : Reg) (imm : Byte)
  | ori (rd : Reg) (imm : Byte)
  | beqz (rd : Reg) (imm : Byte)
  | bnez (rd : Reg) (imm : Byte)
  | bmi (rd : Reg) (imm : Byte)
  | bpl (rd : Reg) (imm : Byte)
  | j (imm : Byte)
  deriving DecidableEq, Repr

end Sys2Proof
end

