-- ==== Sys2Proof/Decode.lean ====
section
/-! DEFINITION. The bit fields, the decoder, the encoder and the opcode map (30_encoding.md R50 to R60), and how a word
lies in bytes (20_memory.md R33, R35, R36). -/

namespace Sys2Proof

/-- Bits 7:0, the manual's "lower byte" (00_scope.md section 7). -/
def lowByte (w : Word) : Byte := w.extractLsb' 0 8

/-- Bits 15:8, the manual's "higher byte" (00_scope.md section 7). -/
def highByte (w : Word) : Byte := w.extractLsb' 8 8

/-- `{hi, lo}`, the concatenation of 00_scope.md section 6. -/
def joinBytes (hi lo : Byte) : Word := hi ++ lo

/-- R33: the byte of a word that lies at the lower of its two addresses. -/
def firstByte (o : ByteOrder) (w : Word) : Byte :=
  match o with
  | .big => highByte w
  | .little => lowByte w

/-- R33: the byte of a word that lies at the higher of its two addresses. -/
def secondByte (o : ByteOrder) (w : Word) : Byte :=
  match o with
  | .big => lowByte w
  | .little => highByte w

/-- R35: the word whose bytes at the lower and the higher address are `b0` and `b1`. -/
def wordOfBytes (o : ByteOrder) (b0 b1 : Byte) : Word :=
  match o with
  | .big => joinBytes b0 b1
  | .little => joinBytes b1 b0

/-- `W[15:11]`, the primary opcode (R51). -/
def opField (w : Word) : BitVec 5 := w.extractLsb' 11 5

/-- `W[10:8]`, the manual's `ddd` (R52, R53). -/
def rdField (w : Word) : Reg := (w.extractLsb' 8 3).toFin

/-- `W[7:5]`, the manual's `sss` (R52). -/
def rsField (w : Word) : Reg := (w.extractLsb' 5 3).toFin

/-- `W[4:0]`, the function code of the R-format (R52). -/
def functField (w : Word) : BitVec 5 := w.extractLsb' 0 5

/-- `W[7:0]`, the only immediate (R53, R54). -/
def immField (w : Word) : Byte := w.extractLsb' 0 8

/-- Why bytes are no instruction. -/
inductive DecodeError where
  /-- Fewer than the two bytes every instruction has (R5, R60). -/
  | truncated
  /-- A word that R57 does not define (R58). -/
  | illegal (w : Word)
  deriving DecidableEq, Repr

/-- The R-format half of R56. -/
def decodeRegister (w : Word) : Option Instr :=
  match functField w with
  | 0b00000#5 => some .nop
  | 0b00001#5 => some (.mov (rdField w) (rsField w))
  | 0b00010#5 => some (.not (rdField w) (rsField w))
  | 0b00011#5 => some (.xor (rdField w) (rsField w))
  | 0b00100#5 => some (.add (rdField w) (rsField w))
  | 0b00101#5 => some (.sub (rdField w) (rsField w))
  | 0b00110#5 => some (.sl8 (rdField w) (rsField w))
  | 0b00111#5 => some (.sr8 (rdField w) (rsField w))
  | 0b01000#5 => some (.sl (rdField w) (rsField w))
  | 0b01001#5 => some (.sr (rdField w) (rsField w))
  | 0b01010#5 => some (.and (rdField w) (rsField w))
  | 0b01011#5 => some (.or (rdField w) (rsField w))
  | 0b10000#5 => some (.sw (rdField w) (rsField w))
  | 0b10001#5 => some (.lw (rdField w) (rsField w))
  | 0b10010#5 => some (.sbu (rdField w) (rsField w))
  | 0b10011#5 => some (.lbu (rdField w) (rsField w))
  | _ => none

/-- The I-format half of R56. -/
def decodeImmediate (w : Word) : Option Instr :=
  match opField w with
  | 0b00001#5 => some (.lli (rdField w) (immField w))
  | 0b00011#5 => some (.xori (rdField w) (immField w))
  | 0b00100#5 => some (.addi (rdField w) (immField w))
  | 0b00110#5 => some (.lui (rdField w) (immField w))
  | 0b01010#5 => some (.andi (rdField w) (immField w))
  | 0b01011#5 => some (.ori (rdField w) (immField w))
  | 0b10000#5 => some (.beqz (rdField w) (immField w))
  | 0b10001#5 => some (.bnez (rdField w) (immField w))
  | 0b10010#5 => some (.bmi (rdField w) (immField w))
  | 0b10011#5 => some (.bpl (rdField w) (immField w))
  | 0b11000#5 => some (.j (immField w))
  | _ => none

/-- R56: the instruction a word is, `none` for an illegal word (R58). -/
def decodeWord (w : Word) : Option Instr :=
  if opField w = 0b00000#5 then decodeRegister w else decodeImmediate w

/-- The decoder on bytes as memory holds them: the first instruction and the bytes after it (R5, R36, R60). -/
def decodeBytes (o : ByteOrder) (bytes : List Byte) : Except DecodeError (Instr × List Byte) :=
  match bytes with
  | b0 :: b1 :: rest =>
    match decodeWord (wordOfBytes o b0 b1) with
    | some i => .ok (i, rest)
    | none => .error (.illegal (wordOfBytes o b0 b1))
  | _ => .error .truncated

/-- R52: the R-format word with these fields. -/
def encodeRegister (funct : BitVec 5) (rd rs : Reg) : Word :=
  0b00000#5 ++ BitVec.ofNat 3 rd.val ++ BitVec.ofNat 3 rs.val ++ funct

/-- R53: the I-format word with these fields. -/
def encodeImmediate (op : BitVec 5) (rd : Reg) (imm : Byte) : Word :=
  op ++ BitVec.ofNat 3 rd.val ++ imm

/-- The word of an instruction (R57); unused bits are zero, the canonical encoding of R55. -/
def encode : Instr → Word
  | .nop => encodeRegister 0b00000#5 0 0
  | .mov rd rs => encodeRegister 0b00001#5 rd rs
  | .not rd rs => encodeRegister 0b00010#5 rd rs
  | .xor rd rs => encodeRegister 0b00011#5 rd rs
  | .add rd rs => encodeRegister 0b00100#5 rd rs
  | .sub rd rs => encodeRegister 0b00101#5 rd rs
  | .sl8 rd rs => encodeRegister 0b00110#5 rd rs
  | .sr8 rd rs => encodeRegister 0b00111#5 rd rs
  | .sl rd rs => encodeRegister 0b01000#5 rd rs
  | .sr rd rs => encodeRegister 0b01001#5 rd rs
  | .and rd rs => encodeRegister 0b01010#5 rd rs
  | .or rd rs => encodeRegister 0b01011#5 rd rs
  | .sw rd rs => encodeRegister 0b10000#5 rd rs
  | .lw rd rs => encodeRegister 0b10001#5 rd rs
  | .sbu rd rs => encodeRegister 0b10010#5 rd rs
  | .lbu rd rs => encodeRegister 0b10011#5 rd rs
  | .lli rd imm => encodeImmediate 0b00001#5 rd imm
  | .xori rd imm => encodeImmediate 0b00011#5 rd imm
  | .addi rd imm => encodeImmediate 0b00100#5 rd imm
  | .lui rd imm => encodeImmediate 0b00110#5 rd imm
  | .andi rd imm => encodeImmediate 0b01010#5 rd imm
  | .ori rd imm => encodeImmediate 0b01011#5 rd imm
  | .beqz rd imm => encodeImmediate 0b10000#5 rd imm
  | .bnez rd imm => encodeImmediate 0b10001#5 rd imm
  | .bmi rd imm => encodeImmediate 0b10010#5 rd imm
  | .bpl rd imm => encodeImmediate 0b10011#5 rd imm
  | .j imm => encodeImmediate 0b11000#5 0 imm

/-- The two bytes of an instruction as memory holds them (R36). -/
def encodeBytes (o : ByteOrder) (i : Instr) : List Byte :=
  [firstByte o (encode i), secondByte o (encode i)]

/-- The mask and the match of an instruction's row of R57. -/
def opcodeRow : Instr → Word × Word
  | .nop => (0xF81F#16, 0x0000#16)
  | .mov _ _ => (0xF81F#16, 0x0001#16)
  | .not _ _ => (0xF81F#16, 0x0002#16)
  | .xor _ _ => (0xF81F#16, 0x0003#16)
  | .add _ _ => (0xF81F#16, 0x0004#16)
  | .sub _ _ => (0xF81F#16, 0x0005#16)
  | .sl8 _ _ => (0xF81F#16, 0x0006#16)
  | .sr8 _ _ => (0xF81F#16, 0x0007#16)
  | .sl _ _ => (0xF81F#16, 0x0008#16)
  | .sr _ _ => (0xF81F#16, 0x0009#16)
  | .and _ _ => (0xF81F#16, 0x000A#16)
  | .or _ _ => (0xF81F#16, 0x000B#16)
  | .sw _ _ => (0xF81F#16, 0x0010#16)
  | .lw _ _ => (0xF81F#16, 0x0011#16)
  | .sbu _ _ => (0xF81F#16, 0x0012#16)
  | .lbu _ _ => (0xF81F#16, 0x0013#16)
  | .lli _ _ => (0xF800#16, 0x0800#16)
  | .xori _ _ => (0xF800#16, 0x1800#16)
  | .addi _ _ => (0xF800#16, 0x2000#16)
  | .lui _ _ => (0xF800#16, 0x3000#16)
  | .andi _ _ => (0xF800#16, 0x5000#16)
  | .ori _ _ => (0xF800#16, 0x5800#16)
  | .beqz _ _ => (0xF800#16, 0x8000#16)
  | .bnez _ _ => (0xF800#16, 0x8800#16)
  | .bmi _ _ => (0xF800#16, 0x9000#16)
  | .bpl _ _ => (0xF800#16, 0x9800#16)
  | .j _ => (0xF800#16, 0xC000#16)

/-- What the decoder reads from an instruction whose bits are `w`, numbered as spec/opcode_table.json numbers them,
the bits from `nbits` up being zero. The word is laid out in the default byte order of R33 and read back in it. -/
def decodeTableWord (nbits w : Nat) : Option Instr :=
  let word : Word := BitVec.ofNat 16 (w % 2 ^ nbits)
  match decodeBytes .big [firstByte .big word, secondByte .big word] with
  | .ok (i, _) => some i
  | .error _ => none

end Sys2Proof
end

