-- ==== Sys2Proof/Machine/Params.lean ====
section
/-! DEFINITION. The values of the parameters after reset: the defaults of 00_scope.md R7. Each is the spec's decision
(92_eei_decisions.md; assumption log 2 to 9 and 14); a test that shows another value changes it here. -/

namespace Sys2Proof.Machine

/-- The default of every parameter of R7. -/
def defaultConfig : Config where
  byteOrder := .big
  memMap := [⟨0, 65536⟩]
  branchBase := .zero
  branchScale := .one
  lliOther := .preserve
  luiOther := .preserve
  lbuOther := .preserve
  xoriExt := .zero
  reg0Zero := false
  onIllegal := .fault
  onMisalignedData := .fault
  onOddPc := .fault
  resetPc := 0x0000#16

end Sys2Proof.Machine
end

