-- ==== Sys2Proof/Machine/State.lean ====
section
/-! DEFINITION. The state of the machine (10_state.md section 1), its faults (60_exceptions.md R120 to R125) and the
state after reset (10_state.md R21 to R24). -/

namespace Sys2Proof.Machine

/-- The four faults (R121 to R124), each with the information it records. Each is a decision of the spec for a case the
source leaves without an outcome. Safe: the real machine may go on where the model stops. -/
inductive Fault where
  /-- R121: the step that fetched `w`, a word that is no instruction (R58). Safe. -/
  | illegalInstruction (w : Word)
  /-- R122: `lw` or `sw` whose address `ea` is odd. Safe. -/
  | misalignedAccess (ea : Word)
  /-- R123: any step that starts with an odd `pc`. Safe. -/
  | fetchMisaligned (pc : Word)
  /-- R124: a fetch, load or store that touches a byte outside MEM_MAP; `a` is the first such address. Safe. -/
  | unbackedAccess (a : Word)
  deriving DecidableEq, Repr

/-- Why an instruction has no meaning here. -/
inductive Refusal where
  /-- An arm of `exec` whose instruction is not modelled yet; no arm answers it. Safe. -/
  | notModelled (mnemonic : String)
  deriving DecidableEq, Repr

/-- The bytes of memory (R19) that differ from what an unlisted address reads as, by rising address. -/
abbrev Memory := List Host.Cell

/-- The state: 10_state.md section 1, and the two fields of the model's own, `cfg` and `freeCount`. -/
structure State where
  /-- The parameters of R7. The model's own field: no step writes it (assumption log 1). -/
  cfg : Config
  /-- The general registers `x[0]` to `x[7]` (R10). -/
  regs : Vector Word 8
  /-- The program counter, the address of the instruction that executes (R14). -/
  pc : Word
  /-- The memory `M` (R19). -/
  mem : Memory
  /-- The fault status (R21). -/
  fault : Option Fault
  /-- How many free bytes the `any` readings have drawn. The model's own field (assumption log 20). -/
  freeCount : Nat
  deriving DecidableEq, Repr

/-- What an instruction or a step answers. -/
abbrev Result := Host.Outcome State Fault Refusal

/-- `s` with the word `v` in register `r`, whatever REG0_ZERO says. -/
def State.setReg (s : State) (r : Reg) (v : Word) : State := { s with regs := s.regs.set r v }

/-- `s` with `pc` set (R8). -/
def State.setPc (s : State) (pc : Word) : State := { s with pc := pc }

/-- `s` with another memory. -/
def State.setMem (s : State) (mem : Memory) : State := { s with mem := mem }

/-- `s` with another fault status. -/
def State.setFault (s : State) (f : Option Fault) : State := { s with fault := f }

/-- `s` with another count of drawn free bytes. -/
def State.setFreeCount (s : State) (n : Nat) : State := { s with freeCount := n }

/-- The machine right after reset: `pc` at RESET_PC (R22) and fault status none (R21). The registers (R23) and the
memory (R24) are unspecified there; the model names zero for each (DESIGN CHOICE, assumption log 12 and 13). -/
def State.reset : State where
  cfg := defaultConfig
  regs := Vector.replicate 8 0x0000#16
  pc := defaultConfig.resetPc
  mem := []
  fault := none
  freeCount := 0

end Sys2Proof.Machine
end

