-- ==== Sys2Proof/Machine/Ops.lean ====
section
/-! DEFINITION. The operations over memory, registers and the program counter that the meanings share (00_scope.md R8),
raising a fault (60_exceptions.md R120), and instruction fetch (70_reset_and_hazards.md R146). -/

namespace Sys2Proof.Machine

/-- What a byte nothing has written reads as. R24 leaves it unspecified (DESIGN CHOICE, assumption log 13). -/
def Memory.unlisted : Byte := 0x00#8

/-- `M[a]` (R34). -/
def Memory.read (m : Memory) (a : Nat) : Byte :=
  match m with
  | [] => Memory.unlisted
  | c :: rest => if c.1 = a then c.2 else Memory.read rest a

/-- The memory without an entry for `a`. -/
def Memory.erase (m : Memory) (a : Nat) : Memory := m.filter fun c => decide (c.1 ≠ a)

/-- The memory with an entry for `a` put before the first higher address. -/
def Memory.insert (m : Memory) (a : Nat) (v : Byte) : Memory :=
  match m with
  | [] => [(a, v)]
  | c :: rest => if c.1 < a then c :: Memory.insert rest a v else (a, v) :: c :: rest

/-- `M[a] <- v` (R34); the byte an unlisted address reads as is not listed. -/
def Memory.write (m : Memory) (a : Nat) (v : Byte) : Memory :=
  if v = Memory.unlisted then Memory.erase m a else Memory.insert (Memory.erase m a) a v

/-- The canonical form: addresses strictly rise, lie in the address space (R6), and no entry lists what an unlisted
address reads as. -/
abbrev Memory.wf (m : Memory) : Prop :=
  m.Pairwise (fun c d => c.1 < d.1) ∧ ∀ c ∈ m, c.1 < 65536 ∧ c.2 ≠ Memory.unlisted

/-- R31: whether MEM_MAP backs the address `a`. -/
def backed (c : Config) (a : Word) : Bool :=
  c.memMap.any fun r => decide (r.base ≤ a.toNat) && decide (a.toNat < r.base + r.size)

/-- `MemRead(a, 1)` on a backed address (R34). -/
def readByte (s : State) (a : Word) : Byte := Memory.read s.mem a.toNat

/-- `MemRead(a, 2)` on backed addresses (R35). -/
def readWord (s : State) (a : Word) : Word :=
  wordOfBytes s.cfg.byteOrder (readByte s a) (readByte s (a + 1))

/-- `MemWrite(a, 1, v)` on a backed address (R34). -/
def writeByte (s : State) (a : Word) (v : Byte) : State := s.setMem (Memory.write s.mem a.toNat v)

/-- `MemWrite(a, 2, v)` on backed addresses (R35). -/
def writeWord (s : State) (a : Word) (v : Word) : State :=
  writeByte (writeByte s a (firstByte s.cfg.byteOrder v)) (a + 1) (secondByte s.cfg.byteOrder v)

/-- R34, R124: what an access to the one byte at `a` raises. -/
def byteFault (s : State) (a : Word) : Option Fault :=
  if backed s.cfg a then none else some (.unbackedAccess a)

/-- R35, R124: what an access to the bytes at `a` and `a + 1` raises, the first unbacked address reported. -/
def wordFault (s : State) (a : Word) : Option Fault :=
  match byteFault s a with
  | some f => some f
  | none => byteFault s (a + 1)

/-- "16-bit aligned" (R37): bit 0 of the address is clear. -/
def isEven (a : Word) : Bool := !a.getLsbD 0

/-- R100: what the access of a `lw` or a `sw` raises, the alignment being checked first (R38, R125). -/
def dataWordFault (s : State) (ea : Word) : Option Fault :=
  if isEven ea then wordFault s ea
  else
    match s.cfg.onMisalignedData with
    | .fault => some (.misalignedAccess ea)

/-- Whether register `r` is hardwired to zero (R12: only register 0 can be, at `REG0_ZERO = true`). -/
def hardwired (c : Config) (r : Reg) : Bool := c.reg0Zero && decide (r = 0)

/-- `x[r]` (R8, R12). -/
def readReg (s : State) (r : Reg) : Word := if hardwired s.cfg r then 0 else s.regs[r]

/-- `x[r] <- v` (R8); a hardwired register discards it (R12). -/
def writeReg (s : State) (r : Reg) (v : Word) : State := if hardwired s.cfg r then s else s.setReg r v

/-- R15: `pc <- (pc + 2) mod 2^16`. -/
def advance (s : State) : State := s.setPc (s.pc + 2)

/-- R70, R90, R100: write the result to the destination, then advance. -/
def finish (s : State) (rd : Reg) (v : Word) : State := advance (writeReg s rd v)

/-- RAISING A FAULT: the machine's one form of exception (R120). There is no entry to a handler and no return from one
(R127, R129): the step ends, and no register, memory byte or `pc` changes. -/
def raise (f : Fault) : Result := .fault f

/-- R120, R21: the state a step that raises `f` leaves, the state before it with the fault status set. -/
def recordFault (s : State) (f : Fault) : State := s.setFault (some f)

/-- R91, R94, R104: the byte the instruction does not name, by its `*_OTHER` parameter; `old` is that byte before. -/
def otherByte (p : OtherByte) (s : State) (old : Byte) : Byte :=
  match p with
  | .preserve => old
  | .zero => 0x00#8
  | .any => Config.freeByte s.freeCount

/-- R91, R94, R104: at `any` a free byte is used up, so that the next is chosen afresh. -/
def drawOther (p : OtherByte) (s : State) : State :=
  match p with
  | .preserve => s
  | .zero => s
  | .any => s.setFreeCount (s.freeCount + 1)

/-- R36: the instruction word at `pc`. -/
def fetchWord (s : State) : Word := readWord s s.pc

/-- R146, first lines: what the fetch raises before a word is read (R123, R124). -/
def fetchFault (s : State) : Option Fault :=
  if isEven s.pc then wordFault s s.pc
  else
    match s.cfg.onOddPc with
    | .fault => some (.fetchMisaligned s.pc)

/-- R146: the instruction the step executes, or the fault it raises instead (R121, R123, R124, in the order of R125). -/
def fetchInstr (s : State) : Except Fault Instr :=
  match fetchFault s with
  | some f => .error f
  | none =>
    match decodeBytes s.cfg.byteOrder [readByte s s.pc, readByte s (s.pc + 1)] with
    | .ok (i, _) => .ok i
    | .error _ =>
      match s.cfg.onIllegal with
      | .fault => .error (.illegalInstruction (fetchWord s))

/-- `s` with the instruction whose bits are `w`, numbered as spec/opcode_table.json numbers them and zero from `nbits`
up, laid at `pc` as `MemWrite(pc, 2, W)` lays it (R143). -/
def placeWord (s : State) (nbits w : Nat) : State := writeWord s s.pc (BitVec.ofNat 16 (w % 2 ^ nbits))

end Sys2Proof.Machine
end

