-- ==== Sys2Proof/Machine/Operands.lean ====
section
/-! DEFINITION. The operand forms: the widened immediates (30_encoding.md R54), the effective address (20_memory.md R30)
and the branch target (43_branch_jump.md R110). A register operand is `readReg` of Machine/Ops.lean. -/

namespace Sys2Proof.Machine

/-- `sext_16` (R8). -/
def sext16 (v : Byte) : Word := v.signExtend 16

/-- `zext_16` (R8). -/
def zext16 (v : Byte) : Word := v.setWidth 16

/-- R92: the immediate of `xori`, by XORI_EXT. -/
def xoriOperand (c : Config) (imm : Byte) : Word :=
  match c.xoriExt with
  | .zero => zext16 imm
  | .sign => sext16 imm

/-- R30, R100: the address of a load or a store is the whole register. -/
def effectiveAddress (s : State) (rs : Reg) : Word := readReg s rs

/-- BRANCH_BASE as the number it stands for (R110). -/
def branchBaseValue (c : Config) : Word :=
  match c.branchBase with
  | .zero => 0
  | .two => 2

/-- BRANCH_SCALE as the number it stands for (R110). -/
def branchScaleValue (c : Config) : Word :=
  match c.branchScale with
  | .one => 1
  | .two => 2

/-- R110: the target of a control transfer, reduced modulo 2^16. -/
def branchTarget (s : State) (imm : Byte) : Word :=
  s.pc + branchBaseValue s.cfg + branchScaleValue s.cfg * sext16 imm

/-- R110: a control transfer that is taken. It writes `pc` and nothing else, and makes no alignment check (R116). -/
def jump (s : State) (imm : Byte) : State := s.setPc (branchTarget s imm)

/-- R15: a branch whose condition is `taken`. -/
def branch (taken : Bool) (s : State) (imm : Byte) : State := if taken then jump s imm else advance s

end Sys2Proof.Machine
end

