-- ==== Sys2Proof/Machine/AluImmediate.lean ====
section
/-! DEFINITION. The register-immediate instructions (41_alu_immediate.md R90 to R96). The manual's `rs` in the
descriptions of `addi`, `andi` and `ori` is read as `rd` (R90, 90_conflicts.md C1). -/

namespace Sys2Proof.Machine

/-- `lli rd, imm` (R91): the lower byte is `imm`, the higher by LLI_OTHER. -/
def execLli (rd : Reg) (imm : Byte) (s : State) : Result :=
  .next (finish (drawOther s.cfg.lliOther s) rd
    (joinBytes (otherByte s.cfg.lliOther s (highByte (readReg s rd))) imm))

/-- `xori rd, imm` (R92). -/
def execXori (rd : Reg) (imm : Byte) (s : State) : Result :=
  .next (finish s rd (readReg s rd ^^^ xoriOperand s.cfg imm))

/-- `addi rd, imm` (R93). -/
def execAddi (rd : Reg) (imm : Byte) (s : State) : Result := .next (finish s rd (readReg s rd + sext16 imm))

/-- `lui rd, imm` (R94): the higher byte is `imm`, the lower by LUI_OTHER. -/
def execLui (rd : Reg) (imm : Byte) (s : State) : Result :=
  .next (finish (drawOther s.cfg.luiOther s) rd
    (joinBytes imm (otherByte s.cfg.luiOther s (lowByte (readReg s rd)))))

/-- `andi rd, imm` (R95). -/
def execAndi (rd : Reg) (imm : Byte) (s : State) : Result := .next (finish s rd (readReg s rd &&& zext16 imm))

/-- `ori rd, imm` (R96). -/
def execOri (rd : Reg) (imm : Byte) (s : State) : Result := .next (finish s rd (readReg s rd ||| zext16 imm))

end Sys2Proof.Machine
end

