-- ==== Sys2Proof/Machine/AluRegister.lean ====
section
/-! DEFINITION. The register-register instructions (40_alu_register.md R70 to R83). -/

namespace Sys2Proof.Machine

/-- `nop` (R72). -/
def execNop (s : State) : Result := .next (advance s)

/-- `mov rd, rs` (R73). -/
def execMov (rd rs : Reg) (s : State) : Result := .next (finish s rd (readReg s rs))

/-- `not rd, rs` (R74). -/
def execNot (rd rs : Reg) (s : State) : Result := .next (finish s rd (~~~(readReg s rs)))

/-- `xor rd, rs` (R75). -/
def execXor (rd rs : Reg) (s : State) : Result := .next (finish s rd (readReg s rd ^^^ readReg s rs))

/-- `add rd, rs` (R76; the carry is lost, R71). -/
def execAdd (rd rs : Reg) (s : State) : Result := .next (finish s rd (readReg s rd + readReg s rs))

/-- `sub rd, rs` (R77: `rd` - `rs`). -/
def execSub (rd rs : Reg) (s : State) : Result := .next (finish s rd (readReg s rd - readReg s rs))

/-- `sl8 rd, rs` (R78). -/
def execSl8 (rd rs : Reg) (s : State) : Result := .next (finish s rd (readReg s rs <<< 8))

/-- `sr8 rd, rs` (R79, logical). -/
def execSr8 (rd rs : Reg) (s : State) : Result := .next (finish s rd (readReg s rs >>> 8))

/-- `sl rd, rs` (R80). -/
def execSl (rd rs : Reg) (s : State) : Result := .next (finish s rd (readReg s rs <<< 1))

/-- `sr rd, rs` (R81, logical). -/
def execSr (rd rs : Reg) (s : State) : Result := .next (finish s rd (readReg s rs >>> 1))

/-- `and rd, rs` (R82). -/
def execAnd (rd rs : Reg) (s : State) : Result := .next (finish s rd (readReg s rd &&& readReg s rs))

/-- `or rd, rs` (R83). -/
def execOr (rd rs : Reg) (s : State) : Result := .next (finish s rd (readReg s rd ||| readReg s rs))

end Sys2Proof.Machine
end

