-- ==== Sys2Proof/Machine/Flags.lean ====
section
/-! DEFINITION. The machine has no flags (10_state.md R16): a branch tests a register's value. The two tests. -/

namespace Sys2Proof.Machine

/-- R111, R112: all 16 bits are zero. -/
def isZero (v : Word) : Bool := decide (v = 0x0000#16)

/-- R113, R114: "less than zero" read as signed, that is bit 15 set (R71). -/
def isMinus (v : Word) : Bool := v.getLsbD 15

end Sys2Proof.Machine
end

