-- ==== Sys2Proof/Machine/Branch.lean ====
section
/-! DEFINITION. The control transfers (43_branch_jump.md R110 to R117). None of them faults in its own step (R116). -/

namespace Sys2Proof.Machine

/-- `beqz rd, imm` (R111). -/
def execBeqz (rd : Reg) (imm : Byte) (s : State) : Result := .next (branch (isZero (readReg s rd)) s imm)

/-- `bnez rd, imm` (R112). -/
def execBnez (rd : Reg) (imm : Byte) (s : State) : Result := .next (branch (!isZero (readReg s rd)) s imm)

/-- `bmi rd, imm` (R113). -/
def execBmi (rd : Reg) (imm : Byte) (s : State) : Result := .next (branch (isMinus (readReg s rd)) s imm)

/-- `bpl rd, imm` (R114). -/
def execBpl (rd : Reg) (imm : Byte) (s : State) : Result := .next (branch (!isMinus (readReg s rd)) s imm)

/-- `j imm` (R115). -/
def execJ (imm : Byte) (s : State) : Result := .next (jump s imm)

end Sys2Proof.Machine
end

