-- ==== Sys2Proof/Machine/LoadStore.lean ====
section
/-! DEFINITION. The loads and stores (42_load_store.md R100 to R104). The registers are read before any effect, the checks
come before the access, and a fault changes nothing (R100). -/

namespace Sys2Proof.Machine

/-- `sw rd, (rs)` (R101). -/
def execSw (rd rs : Reg) (s : State) : Result :=
  match dataWordFault s (effectiveAddress s rs) with
  | some f => raise f
  | none => .next (advance (writeWord s (effectiveAddress s rs) (readReg s rd)))

/-- `lw rd, (rs)` (R102). -/
def execLw (rd rs : Reg) (s : State) : Result :=
  match dataWordFault s (effectiveAddress s rs) with
  | some f => raise f
  | none => .next (finish s rd (readWord s (effectiveAddress s rs)))

/-- `sbu rd, (rs)` (R103): the lower byte of `rd`, at any address. -/
def execSbu (rd rs : Reg) (s : State) : Result :=
  match byteFault s (effectiveAddress s rs) with
  | some f => raise f
  | none => .next (advance (writeByte s (effectiveAddress s rs) (lowByte (readReg s rd))))

/-- `lbu rd, (rs)` (R104): into the lower byte of `rd`, the higher by LBU_OTHER. -/
def execLbu (rd rs : Reg) (s : State) : Result :=
  match byteFault s (effectiveAddress s rs) with
  | some f => raise f
  | none =>
    .next (finish (drawOther s.cfg.lbuOther s) rd
      (joinBytes (otherByte s.cfg.lbuOther s (highByte (readReg s rd))) (readByte s (effectiveAddress s rs))))

end Sys2Proof.Machine
end

