-- ==== Sys2Proof/Machine/Dispatch.lean ====
section
/-! DEFINITION. The dispatch: one arm per instruction, each one call of its meaning. -/

namespace Sys2Proof.Machine

open Sys2Proof

/-- The effect of one instruction (R146, after the fetch). -/
def exec (i : Instr) (s : State) : Host.Outcome State Fault Refusal :=
  match i with
  | .nop => Sys2Proof.Machine.execNop s
  | .mov rd rs => Sys2Proof.Machine.execMov rd rs s
  | .not rd rs => Sys2Proof.Machine.execNot rd rs s
  | .xor rd rs => Sys2Proof.Machine.execXor rd rs s
  | .add rd rs => Sys2Proof.Machine.execAdd rd rs s
  | .sub rd rs => Sys2Proof.Machine.execSub rd rs s
  | .sl8 rd rs => Sys2Proof.Machine.execSl8 rd rs s
  | .sr8 rd rs => Sys2Proof.Machine.execSr8 rd rs s
  | .sl rd rs => Sys2Proof.Machine.execSl rd rs s
  | .sr rd rs => Sys2Proof.Machine.execSr rd rs s
  | .and rd rs => Sys2Proof.Machine.execAnd rd rs s
  | .or rd rs => Sys2Proof.Machine.execOr rd rs s
  | .sw rd rs => Sys2Proof.Machine.execSw rd rs s
  | .lw rd rs => Sys2Proof.Machine.execLw rd rs s
  | .sbu rd rs => Sys2Proof.Machine.execSbu rd rs s
  | .lbu rd rs => Sys2Proof.Machine.execLbu rd rs s
  | .lli rd imm => Sys2Proof.Machine.execLli rd imm s
  | .xori rd imm => Sys2Proof.Machine.execXori rd imm s
  | .addi rd imm => Sys2Proof.Machine.execAddi rd imm s
  | .lui rd imm => Sys2Proof.Machine.execLui rd imm s
  | .andi rd imm => Sys2Proof.Machine.execAndi rd imm s
  | .ori rd imm => Sys2Proof.Machine.execOri rd imm s
  | .beqz rd imm => Sys2Proof.Machine.execBeqz rd imm s
  | .bnez rd imm => Sys2Proof.Machine.execBnez rd imm s
  | .bmi rd imm => Sys2Proof.Machine.execBmi rd imm s
  | .bpl rd imm => Sys2Proof.Machine.execBpl rd imm s
  | .j imm => Sys2Proof.Machine.execJ imm s

end Sys2Proof.Machine
end

