-- ==== Sys2Proof/Machine/Step.lean ====
section
/-! DEFINITION. One step (70_reset_and_hazards.md R146) and where the next instruction lies. -/

namespace Sys2Proof.Machine

/-- R146: one instruction, completely, or one fault. A state whose fault status is set has no further step (R21): it
answers the fault it holds (assumption log 15). -/
def step (s : State) : Host.Outcome State Fault Refusal :=
  match s.fault with
  | some f => raise f
  | none =>
    match fetchInstr s with
    | .error f => raise f
    | .ok i => exec i s

/-- `s` with the instruction of bits `w` where `step` fetches its next one. -/
def State.withFetchWord (s : State) (nbits w : Nat) : State := placeWord s nbits w

end Sys2Proof.Machine
end

