-- ==== Sys2Proof/WellFormed.lean ====
section
/-! DEFINITION. The checks the spec puts on what is given to the machine from outside: the parameters (00_scope.md R7)
and the immediates of the assembler notation (30_encoding.md R63). An `Instr` needs no check: its operands have the
widths of their fields (R52, R53), so an operand out of range cannot be written. -/

namespace Sys2Proof

/-- R7: "an even 16-bit value". -/
def Config.resetPcEven (c : Config) : Bool := c.resetPc.toNat % 2 == 0

/-- R31: MEM_MAP is a set of byte addresses of the 65,536. -/
def Config.mapInSpace (c : Config) : Bool := c.memMap.all fun r => decide (r.base + r.size ≤ 65536)

/-- The two checks R7 and R31 put on the parameters. -/
def Config.wellFormed (c : Config) : Bool := c.resetPcEven && c.mapInSpace

/-- R63: an immediate is written as a number from -128 to 255. -/
def immediateFits (n : Int) : Bool := decide (-128 ≤ n) && decide (n ≤ 255)

end Sys2Proof
end

