-- ==== Sys2Proof/Machine/Assembly.lean ====
section
/-! DEFINITION. The assembler notation (30_encoding.md R62 to R65) and the arithmetic of branch immediates
(43_branch_jump.md R116). -/

namespace Sys2Proof.Machine

/-- The instruction's name in the manual's table (R2, R57). -/
def mnemonic : Instr → String
  | .nop => "nop"
  | .mov _ _ => "mov"
  | .not _ _ => "not"
  | .xor _ _ => "xor"
  | .add _ _ => "add"
  | .sub _ _ => "sub"
  | .sl8 _ _ => "sl8"
  | .sr8 _ _ => "sr8"
  | .sl _ _ => "sl"
  | .sr _ _ => "sr"
  | .and _ _ => "and"
  | .or _ _ => "or"
  | .sw _ _ => "sw"
  | .lw _ _ => "lw"
  | .sbu _ _ => "sbu"
  | .lbu _ _ => "lbu"
  | .lli _ _ => "lli"
  | .xori _ _ => "xori"
  | .addi _ _ => "addi"
  | .lui _ _ => "lui"
  | .andi _ _ => "andi"
  | .ori _ _ => "ori"
  | .beqz _ _ => "beqz"
  | .bnez _ _ => "bnez"
  | .bmi _ _ => "bmi"
  | .bpl _ _ => "bpl"
  | .j _ => "j"

/-- The operands an instruction is written with: the five shapes of R62. -/
inductive OperandShape where
  | none
  | registers (rd rs : Reg)
  | address (rd rs : Reg)
  | immediate (rd : Reg) (imm : Byte)
  | jumpImmediate (imm : Byte)
  deriving DecidableEq, Repr

/-- The shape of each instruction (R62). -/
def operandShape : Instr → OperandShape
  | .nop => .none
  | .mov rd rs | .not rd rs | .xor rd rs | .add rd rs | .sub rd rs | .sl8 rd rs | .sr8 rd rs | .sl rd rs
  | .sr rd rs | .and rd rs | .or rd rs => .registers rd rs
  | .sw rd rs | .lw rd rs | .sbu rd rs | .lbu rd rs => .address rd rs
  | .lli rd imm | .xori rd imm | .addi rd imm | .lui rd imm | .andi rd imm | .ori rd imm | .beqz rd imm
  | .bnez rd imm | .bmi rd imm | .bpl rd imm => .immediate rd imm
  | .j imm => .jumpImmediate imm

/-- `r0` to `r7` (R11). -/
def registerName (r : Reg) : String := "r" ++ Nat.repr r.val

/-- The instruction as text (R62, R63), an immediate as the decimal value of its field (R64). -/
def assembly (i : Instr) : String :=
  match operandShape i with
  | .none => mnemonic i
  | .registers rd rs => mnemonic i ++ " " ++ registerName rd ++ ", " ++ registerName rs
  | .address rd rs => mnemonic i ++ " " ++ registerName rd ++ ", (" ++ registerName rs ++ ")"
  | .immediate rd imm => mnemonic i ++ " " ++ registerName rd ++ ", " ++ Nat.repr imm.toNat
  | .jumpImmediate imm => mnemonic i ++ " " ++ Nat.repr imm.toNat

/-- R63: the field of an immediate written as a number, a negative `-n` standing for `256 - n`. -/
def immediateField (n : Int) : Option Byte := if immediateFits n then some (BitVec.ofInt 8 n) else none

/-- R116: the immediate that takes a control transfer at `a` to `t`, where there is one. -/
def branchImmediate (c : Config) (a t : Word) : Option Byte :=
  let distance : Int := (t.toNat : Int) - (a.toNat : Int) - ((branchBaseValue c).toNat : Int)
  let scale : Int := ((branchScaleValue c).toNat : Int)
  if distance % scale = 0 ∧ -128 ≤ distance / scale ∧ distance / scale ≤ 127 then
    some (BitVec.ofInt 8 (distance / scale))
  else none

end Sys2Proof.Machine
end

