-- ==== Sys2Proof/Machine/Launch.lean ====
section
/-! DEFINITION. What the host does before a run (70_reset_and_hazards.md R140, R143): it resets the machine, presets
registers and memory bytes, and lays out a program image. -/

namespace Sys2Proof.Machine

/-- What the host chooses: the parameters (R7), the eight free register values (R23) and the (address, byte) pairs it
writes into memory (R24, R143). -/
structure Launch where
  cfg : Config
  regs : Vector Word 8
  cells : List (Word × Byte)
  deriving DecidableEq, Repr

/-- R143: the host writes memory bytes, one after the other. -/
def writeCells (s : State) (cells : List (Word × Byte)) : State :=
  match cells with
  | [] => s
  | c :: rest => writeCells (writeByte s c.1 c.2) rest

/-- R140: the state reset establishes for this choice: `pc` at RESET_PC, fault status none, the chosen registers and
memory. `State.reset` is the launch with the default parameters, zero registers and no cells. -/
def launch (l : Launch) : State :=
  writeCells { State.reset with cfg := l.cfg, regs := l.regs, pc := l.cfg.resetPc } l.cells

/-- R143: instruction words at consecutive even addresses from `a` on, each as `MemWrite(a, 2, W)` lays it. -/
def wordCells (o : ByteOrder) (a : Word) (ws : List Word) : List (Word × Byte) :=
  match ws with
  | [] => []
  | w :: rest => (a, firstByte o w) :: (a + 1, secondByte o w) :: wordCells o (a + 2) rest

/-- R143: a program image, its first instruction at RESET_PC. -/
def programImage (c : Config) (ws : List Word) : List (Word × Byte) := wordCells c.byteOrder c.resetPc ws

/-- R7, R31: the parameters are in range, and the host writes backed bytes. -/
def Launch.wellFormed (l : Launch) : Bool := l.cfg.wellFormed && l.cells.all fun c => backed l.cfg c.1

end Sys2Proof.Machine
end

