-- ==== Sys2Proof/Machine/Run.lean ====
section
/-! DEFINITION. The machine seen from outside, step by step: a step that raises a fault sets the fault status
(10_state.md R21) and the machine stays there (60_exceptions.md R120). -/

namespace Sys2Proof.Machine

/-- The state after one step, a raised fault being recorded in it (R21, R120). -/
def tick (s : State) : State :=
  match step s with
  | .next t => t
  | .fault f => recordFault s f
  | .refused _ => s

/-- The state after `n` steps. -/
def ticks (n : Nat) (s : State) : State :=
  match n with
  | 0 => s
  | k + 1 => ticks k (tick s)

/-- The effect of instructions one after the other, wherever they lie: the sequences of R142. -/
def execAll (is : List Instr) (s : State) : Result :=
  match is with
  | [] => .next s
  | i :: rest =>
    match exec i s with
    | .next t => execAll rest t
    | .fault f => .fault f
    | .refused r => .refused r

end Sys2Proof.Machine
end

