-- ==== Sys2Proof/Safety.lean ====
section
/-! DEFINITION. What claims are stated in: the end of a run (70_reset_and_hazards.md R144), safety (60_exceptions.md
R133), and what a state keeps of another (the frames). -/

namespace Sys2Proof.Machine

/-- R144: a fixed point, the successful end of a run. -/
def IsFixedPoint (s : State) : Prop := s.fault = none ∧ step s = .next s

/-- R144: the run from `s` reaches the fixed point `t`. -/
def EndsAt (s t : State) : Prop := ∃ n, ticks n s = t ∧ IsFixedPoint t

/-- R133, R144: the run from `s` raises no fault in its first `n` steps. -/
def SafeFor (n : Nat) (s : State) : Prop := ∀ k, k ≤ n → (ticks k s).fault = none

/-- Every byte of memory reads as before. -/
def SameMemory (s t : State) : Prop := ∀ a, Memory.read t.mem a = Memory.read s.mem a

/-- Every byte of memory outside the addresses of `written` reads as before. -/
def SameMemoryOutside (s t : State) (written : List Word) : Prop :=
  ∀ a : Nat, (∀ w ∈ written, a ≠ w.toNat) → Memory.read t.mem a = Memory.read s.mem a

/-- R15: the program counter advances by one instruction. -/
def Advances (s t : State) : Prop := t.pc.toNat = (s.pc.toNat + 2) % 65536

/-- Parameters and fault status are as before, and `draws` free bytes have been drawn. -/
def SameRest (s t : State) (draws : Nat) : Prop :=
  t.cfg = s.cfg ∧ t.fault = s.fault ∧ t.freeCount = s.freeCount + draws

/-- R12, R13: `x[rd]` reads as `v` (a hardwired register as zero, its write being discarded) and no other register
changes. -/
def WritesReg (s t : State) (rd : Reg) (v : Word) : Prop :=
  (hardwired s.cfg rd = false → readReg t rd = v) ∧
  (hardwired s.cfg rd = true → readReg t rd = 0 ∧ t.regs = s.regs) ∧
  ∀ r : Reg, r ≠ rd → t.regs[r] = s.regs[r]

/-- The effect of an instruction that computes into `rd` and advances: the register it writes, and its frame. -/
def ComputesInto (s t : State) (rd : Reg) (v : Word) (draws : Nat) : Prop :=
  WritesReg s t rd v ∧ Advances s t ∧ SameMemory s t ∧ SameRest s t draws

/-- The effect of an instruction that changes nothing but the program counter. -/
def OnlyPcChanges (s t : State) : Prop := t.regs = s.regs ∧ SameMemory s t ∧ SameRest s t 0

/-- How many free bytes an instruction draws at this reading (R91, R94, R104). -/
def drawsOf (p : OtherByte) : Nat :=
  match p with
  | .preserve => 0
  | .zero => 0
  | .any => 1

/-- The registers an instruction may write (R13): the one destination, or none. -/
def destination : Instr → Option Reg
  | .mov rd _ | .not rd _ | .xor rd _ | .add rd _ | .sub rd _ | .sl8 rd _ | .sr8 rd _ | .sl rd _ | .sr rd _
  | .and rd _ | .or rd _ | .lw rd _ | .lbu rd _ | .lli rd _ | .xori rd _ | .addi rd _ | .lui rd _ | .andi rd _
  | .ori rd _ => some rd
  | .nop | .sw _ _ | .sbu _ _ | .beqz _ _ | .bnez _ _ | .bmi _ _ | .bpl _ _ | .j _ => none

/-- The addresses an instruction stores to from state `s` (R39). -/
def storedBytes (i : Instr) (s : State) : List Word :=
  match i with
  | .sw _ rs => [effectiveAddress s rs, effectiveAddress s rs + 1]
  | .sbu _ rs => [effectiveAddress s rs]
  | .nop | .mov _ _ | .not _ _ | .xor _ _ | .add _ _ | .sub _ _ | .sl8 _ _ | .sr8 _ _ | .sl _ _ | .sr _ _
  | .and _ _ | .or _ _ | .lw _ _ | .lbu _ _ | .lli _ _ | .xori _ _ | .addi _ _ | .lui _ _ | .andi _ _ | .ori _ _
  | .beqz _ _ | .bnez _ _ | .bmi _ _ | .bpl _ _ | .j _ => []

/-- The control transfers with their immediate field (R15, R110). -/
def transferImmediate : Instr → Option Byte
  | .beqz _ imm | .bnez _ imm | .bmi _ imm | .bpl _ imm | .j imm => some imm
  | .nop | .mov _ _ | .not _ _ | .xor _ _ | .add _ _ | .sub _ _ | .sl8 _ _ | .sr8 _ _ | .sl _ _ | .sr _ _
  | .and _ _ | .or _ _ | .sw _ _ | .lw _ _ | .sbu _ _ | .lbu _ _ | .lli _ _ | .xori _ _ | .addi _ _ | .lui _ _
  | .andi _ _ | .ori _ _ => none

/-- BRANCH_BASE as the integer it stands for (R7). -/
def branchBaseInt (c : Config) : Int :=
  match c.branchBase with
  | .zero => 0
  | .two => 2

/-- BRANCH_SCALE as the integer it stands for (R7). -/
def branchScaleInt (c : Config) : Int :=
  match c.branchScale with
  | .one => 1
  | .two => 2

/-- Whether a control transfer is taken in state `s` (R111 to R115); no other instruction is. -/
def TransferTaken (i : Instr) (s : State) : Prop :=
  match i with
  | .beqz rd _ => readReg s rd = 0
  | .bnez rd _ => readReg s rd ≠ 0
  | .bmi rd _ => (readReg s rd).toInt < 0
  | .bpl rd _ => 0 ≤ (readReg s rd).toInt
  | .j _ => True
  | .nop | .mov _ _ | .not _ _ | .xor _ _ | .add _ _ | .sub _ _ | .sl8 _ _ | .sr8 _ _ | .sl _ _ | .sr _ _
  | .and _ _ | .or _ _ | .sw _ _ | .lw _ _ | .sbu _ _ | .lbu _ _ | .lli _ _ | .xori _ _ | .addi _ _ | .lui _ _
  | .andi _ _ | .ori _ _ => False

/-- The registers whose old values the result of an instruction depends on: the "reads" columns of R13. `lli`, `lui` and
`lbu` read `rd` only where their parameter is `preserve`. -/
def sources (c : Config) (i : Instr) : List Reg :=
  match i with
  | .nop | .j _ => []
  | .mov _ rs | .not _ rs | .sl _ rs | .sl8 _ rs | .sr _ rs | .sr8 _ rs | .lw _ rs => [rs]
  | .add rd rs | .sub rd rs | .and rd rs | .or rd rs | .xor rd rs | .sw rd rs | .sbu rd rs => [rd, rs]
  | .addi rd _ | .andi rd _ | .ori rd _ | .xori rd _ | .beqz rd _ | .bnez rd _ | .bmi rd _ | .bpl rd _ => [rd]
  | .lli rd _ => if c.lliOther = .preserve then [rd] else []
  | .lui rd _ => if c.luiOther = .preserve then [rd] else []
  | .lbu rd rs => if c.lbuOther = .preserve then [rd, rs] else [rs]

/-- What `x[rd]` reads as after the sequence `is` from state `s`, where all of it completes (R142). -/
def valueAfter (is : List Instr) (s : State) (rd : Reg) : Option Word :=
  match execAll is s with
  | .next t => some (readReg t rd)
  | .fault _ => none
  | .refused _ => none

/-- The sequence `is` completes from `s` and leaves `v` in `x[rd]`; a hardwired register reads as zero (R12). -/
def Leaves (is : List Instr) (s : State) (rd : Reg) (v : Word) : Prop :=
  valueAfter is s rd = some (if hardwired s.cfg rd then 0 else v)

/-- R57: `w` is this instruction, with the fields `make` takes from it, exactly when its bits under `mask` are `bits`. -/
def EncodedBy (mask bits : Word) (make : Word → Instr) : Prop :=
  ∀ w, decodeWord w = some (make w) ↔ w &&& mask = bits

/-- R124: the first of these addresses that MEM_MAP does not back, as the fault it raises. -/
def firstUnbacked (c : Config) (addresses : List Word) : Option Fault :=
  (addresses.find? fun a => !backed c a).map Fault.unbackedAccess

/-- R125, checks (4) and (5). -/
def dataFault (i : Instr) (s : State) : Option Fault :=
  match i with
  | .sw _ rs | .lw _ rs =>
    if (readReg s rs).toNat % 2 = 1 then some (.misalignedAccess (readReg s rs))
    else firstUnbacked s.cfg [readReg s rs, readReg s rs + 1]
  | .sbu _ rs | .lbu _ rs => firstUnbacked s.cfg [readReg s rs]
  | .nop | .mov _ _ | .not _ _ | .xor _ _ | .add _ _ | .sub _ _ | .sl8 _ _ | .sr8 _ _ | .sl _ _ | .sr _ _
  | .and _ _ | .or _ _ | .lli _ _ | .xori _ _ | .addi _ _ | .lui _ _ | .andi _ _ | .ori _ _
  | .beqz _ _ | .bnez _ _ | .bmi _ _ | .bpl _ _ | .j _ => none

/-- R125: the fault a step from `s` reports, the five checks in their fixed order. -/
def expectedFault (s : State) : Option Fault :=
  if s.pc.toNat % 2 = 1 then some (.fetchMisaligned s.pc)
  else
    match firstUnbacked s.cfg [s.pc, s.pc + 1] with
    | some f => some f
    | none =>
      match decodeWord (readWord s s.pc) with
      | none => some (.illegalInstruction (readWord s s.pc))
      | some i => dataFault i s

/-- The invariant of the machine's memory: its canonical form. -/
def MemoryCanonical (s : State) : Prop := Memory.wf s.mem

end Sys2Proof.Machine
end

