-- ==== Sys2Proof/Certificates/Slice0/Obligations.lean ====
section
/-! DEFINITION. The statements about the model, from the numbered rules of the spec. The parameters of R7 are a field of
the state, so a statement over every state is one over every value of every parameter. -/

open Sys2Proof Sys2Proof.Machine

/-! ## Encoding -/

/-- The worked words of 95_test_vectors.md section 1, and one word of each other family from its section 2. -/
def Obligations.WorkedWordsDecode : Prop :=
  decodeWord 0x0224#16 = some (.add 2 1) ∧ decodeWord 0x21FF#16 = some (.addi 1 0xFF#8) ∧
  decodeWord 0x89FC#16 = some (.bnez 1 0xFC#8) ∧ decodeWord 0x0150#16 = some (.sw 1 2) ∧
  decodeWord 0xC506#16 = some (.j 0x06#8) ∧ decodeWord 0x07E0#16 = some .nop

/-- R56, R57, R36: the decoder reads every instruction back from its encoding, with every operand, as a word and from
the bytes memory holds in either byte order, whatever follows. -/
def Obligations.DecodeReadsEncode : Prop :=
  (∀ i, decodeWord (encode i) = some i) ∧
  ∀ (o : ByteOrder) (i : Instr) (rest : List Byte), decodeBytes o (encodeBytes o i ++ rest) = .ok (i, rest)

/-- R57: a word is an instruction of a row exactly when its bits under the row's mask are the row's match. -/
def Obligations.OpcodeMapDecidesDecoding : Prop :=
  ∀ (w : Word) (i : Instr), w &&& (opcodeRow i).1 = (opcodeRow i).2 ↔
    ∃ k, decodeWord w = some k ∧ mnemonic k = mnemonic i

/-- R58: the illegal words are those with the listed function codes or opcodes, and executing one raises
IllegalInstruction(W) and changes nothing. -/
def Obligations.IllegalWordsFault : Prop :=
  (∀ w : Word, decodeWord w = none ↔
    (opField w = 0#5 ∧ ((0b01100 ≤ (functField w).toNat ∧ (functField w).toNat ≤ 0b01111) ∨
      (0b10100 ≤ (functField w).toNat ∧ (functField w).toNat ≤ 0b11111))) ∨
    opField w ∈ [0b00010#5, 0b00101#5, 0b00111#5, 0b01000#5, 0b01001#5, 0b01100#5, 0b01101#5, 0b01110#5, 0b01111#5,
      0b10100#5, 0b10101#5, 0b10110#5, 0b10111#5, 0b11001#5, 0b11010#5, 0b11011#5, 0b11100#5, 0b11101#5, 0b11110#5,
      0b11111#5]) ∧
  ∀ s : State, s.fault = none → s.pc.toNat % 2 = 0 → backed s.cfg s.pc = true → backed s.cfg (s.pc + 1) = true →
    decodeWord (readWord s s.pc) = none →
    step s = .fault (.illegalInstruction (readWord s s.pc)) ∧
    tick s = { s with fault := some (.illegalInstruction (readWord s s.pc)) }

/-- R55: the register bits of `nop` and the `ddd` bits of `j` take any value; the canonical words have them zero. -/
def Obligations.UnusedBitsAreIgnored : Prop :=
  (∀ rd rs : Reg, decodeWord (encodeRegister 0b00000#5 rd rs) = some .nop) ∧
  (∀ (rd : Reg) (imm : Byte), decodeWord (encodeImmediate 0b11000#5 rd imm) = some (.j imm)) ∧
  encode .nop = 0x0000#16 ∧ ∀ imm : Byte, (encode (.j imm)).toNat = 0xC000 + imm.toNat

/-- R55, R57: a defined word is the encoding of its instruction, but for the bits `nop` and `j` ignore. -/
def Obligations.EncodeRestoresTheWord : Prop :=
  ∀ (w : Word) (i : Instr), decodeWord w = some i →
    match i with
    | .nop => encode i = w &&& 0xF81F#16
    | .j _ => encode i = w &&& 0xF8FF#16
    | _ => encode i = w

/-! ## Register-register instructions -/

/-- R72. -/
def Obligations.NopAdvancesOnly : Prop :=
  EncodedBy 0xF81F#16 0x0000#16 (fun _ => .nop) ∧ encode .nop = 0x0000#16 ∧
  ∀ s : State, ∃ t, exec .nop s = .next t ∧ OnlyPcChanges s t ∧ Advances s t

/-- R73, R74: `not` gives `0xFFFF - u(x[rs])`. -/
def Obligations.MovAndNotResults : Prop :=
  EncodedBy 0xF81F#16 0x0001#16 (fun w => .mov (rdField w) (rsField w)) ∧
  EncodedBy 0xF81F#16 0x0002#16 (fun w => .not (rdField w) (rsField w)) ∧
  ∀ (rd rs : Reg) (s : State),
    (∃ t, exec (.mov rd rs) s = .next t ∧ ComputesInto s t rd (readReg s rs) 0) ∧
    (∃ t, exec (.not rd rs) s = .next t ∧
      ComputesInto s t rd (BitVec.ofNat 16 (0xFFFF - (readReg s rs).toNat)) 0)

/-- R75, R82, R83. -/
def Obligations.LogicResults : Prop :=
  EncodedBy 0xF81F#16 0x0003#16 (fun w => .xor (rdField w) (rsField w)) ∧
  EncodedBy 0xF81F#16 0x000A#16 (fun w => .and (rdField w) (rsField w)) ∧
  EncodedBy 0xF81F#16 0x000B#16 (fun w => .or (rdField w) (rsField w)) ∧
  ∀ (rd rs : Reg) (s : State),
    (∃ t, exec (.xor rd rs) s = .next t ∧ ComputesInto s t rd (readReg s rd ^^^ readReg s rs) 0) ∧
    (∃ t, exec (.and rd rs) s = .next t ∧ ComputesInto s t rd (readReg s rd &&& readReg s rs) 0) ∧
    (∃ t, exec (.or rd rs) s = .next t ∧ ComputesInto s t rd (readReg s rd ||| readReg s rs) 0)

/-- R76, R77: sum and difference modulo 2^16. -/
def Obligations.AddAndSubResults : Prop :=
  EncodedBy 0xF81F#16 0x0004#16 (fun w => .add (rdField w) (rsField w)) ∧
  EncodedBy 0xF81F#16 0x0005#16 (fun w => .sub (rdField w) (rsField w)) ∧
  ∀ (rd rs : Reg) (s : State),
    (∃ t, exec (.add rd rs) s = .next t ∧
      ComputesInto s t rd (BitVec.ofNat 16 (((readReg s rd).toNat + (readReg s rs).toNat) % 65536)) 0) ∧
    (∃ t, exec (.sub rd rs) s = .next t ∧
      ComputesInto s t rd
        (BitVec.ofInt 16 ((((readReg s rd).toNat : Int) - ((readReg s rs).toNat : Int)) % 65536)) 0)

/-- R78 to R81: zeros enter, the bits shifted out are lost. -/
def Obligations.ShiftResults : Prop :=
  EncodedBy 0xF81F#16 0x0006#16 (fun w => .sl8 (rdField w) (rsField w)) ∧
  EncodedBy 0xF81F#16 0x0007#16 (fun w => .sr8 (rdField w) (rsField w)) ∧
  EncodedBy 0xF81F#16 0x0008#16 (fun w => .sl (rdField w) (rsField w)) ∧
  EncodedBy 0xF81F#16 0x0009#16 (fun w => .sr (rdField w) (rsField w)) ∧
  ∀ (rd rs : Reg) (s : State),
    (∃ t, exec (.sl8 rd rs) s = .next t ∧ ComputesInto s t rd (joinBytes (lowByte (readReg s rs)) 0x00#8) 0) ∧
    (∃ t, exec (.sr8 rd rs) s = .next t ∧ ComputesInto s t rd (joinBytes 0x00#8 (highByte (readReg s rs))) 0) ∧
    (∃ t, exec (.sl rd rs) s = .next t ∧
      ComputesInto s t rd (BitVec.ofNat 16 ((readReg s rs).toNat * 2 % 65536)) 0) ∧
    (∃ t, exec (.sr rd rs) s = .next t ∧ ComputesInto s t rd (BitVec.ofNat 16 ((readReg s rs).toNat / 2)) 0)

/-! ## Register-immediate instructions -/

/-- R91, R94, under each of the three readings. At `any` the rules say only that the other byte is arbitrary, chosen
afresh; that it is the next `Config.freeByte` and that one is used up is the model's choice (assumption log 20), and holds
for every value of that byte. -/
def Obligations.LliAndLuiResults : Prop :=
  EncodedBy 0xF800#16 0x0800#16 (fun w => .lli (rdField w) (immField w)) ∧
  EncodedBy 0xF800#16 0x3000#16 (fun w => .lui (rdField w) (immField w)) ∧
  ∀ (rd : Reg) (imm : Byte) (s : State),
    (∃ t, exec (.lli rd imm) s = .next t ∧
      match s.cfg.lliOther with
      | .preserve => ComputesInto s t rd (joinBytes (highByte (readReg s rd)) imm) 0
      | .zero => ComputesInto s t rd (joinBytes 0x00#8 imm) 0
      | .any => ComputesInto s t rd (joinBytes (Config.freeByte s.freeCount) imm) 1) ∧
    (∃ t, exec (.lui rd imm) s = .next t ∧
      match s.cfg.luiOther with
      | .preserve => ComputesInto s t rd (joinBytes imm (lowByte (readReg s rd))) 0
      | .zero => ComputesInto s t rd (joinBytes imm 0x00#8) 0
      | .any => ComputesInto s t rd (joinBytes imm (Config.freeByte s.freeCount)) 1)

/-- R92, R93: `xori` by XORI_EXT; `addi` adds the signed value of its immediate modulo 2^16. -/
def Obligations.XoriAndAddiResults : Prop :=
  EncodedBy 0xF800#16 0x1800#16 (fun w => .xori (rdField w) (immField w)) ∧
  EncodedBy 0xF800#16 0x2000#16 (fun w => .addi (rdField w) (immField w)) ∧
  ∀ (rd : Reg) (imm : Byte) (s : State),
    (∃ t, exec (.xori rd imm) s = .next t ∧
      match s.cfg.xoriExt with
      | .zero => ComputesInto s t rd (readReg s rd ^^^ BitVec.ofNat 16 imm.toNat) 0
      | .sign => ComputesInto s t rd (readReg s rd ^^^ BitVec.ofInt 16 imm.toInt) 0) ∧
    (∃ t, exec (.addi rd imm) s = .next t ∧
      ComputesInto s t rd (BitVec.ofInt 16 ((((readReg s rd).toNat : Int) + imm.toInt) % 65536)) 0)

/-- R95, R96: the immediate zero-extended; `andi` clears the higher byte, `ori` keeps it. -/
def Obligations.AndiAndOriResults : Prop :=
  EncodedBy 0xF800#16 0x5000#16 (fun w => .andi (rdField w) (immField w)) ∧
  EncodedBy 0xF800#16 0x5800#16 (fun w => .ori (rdField w) (immField w)) ∧
  ∀ (rd : Reg) (imm : Byte) (s : State),
    (∃ t, exec (.andi rd imm) s = .next t ∧
      ComputesInto s t rd (joinBytes 0x00#8 (lowByte (readReg s rd) &&& imm)) 0) ∧
    (∃ t, exec (.ori rd imm) s = .next t ∧
      ComputesInto s t rd (joinBytes (highByte (readReg s rd)) (lowByte (readReg s rd) ||| imm)) 0)

/-! ## Loads and stores -/

/-- R101: `sw` stores the two bytes of `x[rd]` at the even, backed address `x[rs]`, and faults where that fails. -/
def Obligations.SwStoresTheWord : Prop :=
  EncodedBy 0xF81F#16 0x0010#16 (fun w => .sw (rdField w) (rsField w)) ∧
  ∀ (rd rs : Reg) (s : State) (ea : Word), ea = effectiveAddress s rs →
    (ea.toNat % 2 = 1 → exec (.sw rd rs) s = .fault (.misalignedAccess ea)) ∧
    (ea.toNat % 2 = 0 → backed s.cfg ea = false → exec (.sw rd rs) s = .fault (.unbackedAccess ea)) ∧
    (ea.toNat % 2 = 0 → backed s.cfg ea = true → backed s.cfg (ea + 1) = false →
      exec (.sw rd rs) s = .fault (.unbackedAccess (ea + 1))) ∧
    (ea.toNat % 2 = 0 → backed s.cfg ea = true → backed s.cfg (ea + 1) = true →
      ∃ t, exec (.sw rd rs) s = .next t ∧ t.regs = s.regs ∧ Advances s t ∧ SameRest s t 0 ∧
        SameMemoryOutside s t [ea, ea + 1] ∧
        match s.cfg.byteOrder with
        | .big => Memory.read t.mem ea.toNat = highByte (readReg s rd) ∧
            Memory.read t.mem (ea.toNat + 1) = lowByte (readReg s rd)
        | .little => Memory.read t.mem ea.toNat = lowByte (readReg s rd) ∧
            Memory.read t.mem (ea.toNat + 1) = highByte (readReg s rd))

/-- R102: `lw` loads the word at the even, backed address `x[rs]`, and faults where that fails. -/
def Obligations.LwLoadsTheWord : Prop :=
  EncodedBy 0xF81F#16 0x0011#16 (fun w => .lw (rdField w) (rsField w)) ∧
  ∀ (rd rs : Reg) (s : State) (ea : Word), ea = effectiveAddress s rs →
    (ea.toNat % 2 = 1 → exec (.lw rd rs) s = .fault (.misalignedAccess ea)) ∧
    (ea.toNat % 2 = 0 → backed s.cfg ea = false → exec (.lw rd rs) s = .fault (.unbackedAccess ea)) ∧
    (ea.toNat % 2 = 0 → backed s.cfg ea = true → backed s.cfg (ea + 1) = false →
      exec (.lw rd rs) s = .fault (.unbackedAccess (ea + 1))) ∧
    (ea.toNat % 2 = 0 → backed s.cfg ea = true → backed s.cfg (ea + 1) = true →
      ∃ t, exec (.lw rd rs) s = .next t ∧
        match s.cfg.byteOrder with
        | .big => ComputesInto s t rd
            (joinBytes (Memory.read s.mem ea.toNat) (Memory.read s.mem (ea.toNat + 1))) 0
        | .little => ComputesInto s t rd
            (joinBytes (Memory.read s.mem (ea.toNat + 1)) (Memory.read s.mem ea.toNat)) 0)

/-- R103: `sbu` stores the lower byte of `x[rd]` at any backed address, odd or even. -/
def Obligations.SbuStoresTheByte : Prop :=
  EncodedBy 0xF81F#16 0x0012#16 (fun w => .sbu (rdField w) (rsField w)) ∧
  ∀ (rd rs : Reg) (s : State) (ea : Word), ea = effectiveAddress s rs →
    (backed s.cfg ea = false → exec (.sbu rd rs) s = .fault (.unbackedAccess ea)) ∧
    (backed s.cfg ea = true →
      ∃ t, exec (.sbu rd rs) s = .next t ∧ t.regs = s.regs ∧ Advances s t ∧ SameRest s t 0 ∧
        SameMemoryOutside s t [ea] ∧ Memory.read t.mem ea.toNat = lowByte (readReg s rd))

/-- R104: `lbu` loads a byte from any backed address, under each of the three readings. At `any` the rule says only that
the higher byte is arbitrary, chosen afresh; that it is the next `Config.freeByte` and that one is used up is the model's
choice (assumption log 20), and holds for every value of that byte. -/
def Obligations.LbuLoadsTheByte : Prop :=
  EncodedBy 0xF81F#16 0x0013#16 (fun w => .lbu (rdField w) (rsField w)) ∧
  ∀ (rd rs : Reg) (s : State) (ea : Word), ea = effectiveAddress s rs →
    (backed s.cfg ea = false → exec (.lbu rd rs) s = .fault (.unbackedAccess ea)) ∧
    (backed s.cfg ea = true →
      ∃ t, exec (.lbu rd rs) s = .next t ∧
        match s.cfg.lbuOther with
        | .preserve => ComputesInto s t rd
            (joinBytes (highByte (readReg s rd)) (Memory.read s.mem ea.toNat)) 0
        | .zero => ComputesInto s t rd (joinBytes 0x00#8 (Memory.read s.mem ea.toNat)) 0
        | .any => ComputesInto s t rd
            (joinBytes (Config.freeByte s.freeCount) (Memory.read s.mem ea.toNat)) 1)

/-- R42: bytes and words see each other, in either byte order. -/
def Obligations.MixedWidthsAgree : Prop :=
  ∀ (s : State) (a : Word) (v : Word) (b0 b1 : Byte), a.toNat % 2 = 0 →
    match s.cfg.byteOrder with
    | .big => readByte (writeWord s a v) a = highByte v ∧ readByte (writeWord s a v) (a + 1) = lowByte v ∧
        readWord (writeByte (writeByte s a b0) (a + 1) b1) a = joinBytes b0 b1
    | .little => readByte (writeWord s a v) a = lowByte v ∧ readByte (writeWord s a v) (a + 1) = highByte v ∧
        readWord (writeByte (writeByte s a b0) (a + 1) b1) a = joinBytes b1 b0

/-- R35, R43 (95_test_vectors.md section 4): `sw rd, (rs)` then `lw rt, (rs)` gives `x[rt] = x[rd]`, in either byte
order. -/
def Obligations.StoreThenLoadReturnsTheWord : Prop :=
  ∀ (rd rs rt : Reg) (s : State), (readReg s rs).toNat % 2 = 0 → backed s.cfg (readReg s rs) = true →
    backed s.cfg (readReg s rs + 1) = true →
    ∃ t, execAll [.sw rd rs, .lw rt rs] s = .next t ∧
      readReg t rt = (if hardwired s.cfg rt then 0 else readReg s rd)

/-- R44: the word a `sw` stored is what a later fetch from its address executes, the very next one too. -/
def Obligations.FetchSeesTheStore : Prop :=
  ∀ (rd rs : Reg) (s t : State), exec (.sw rd rs) s = .next t →
    fetchWord (t.setPc (effectiveAddress s rs)) = readReg s rd ∧
    ∀ i, decodeWord (readReg s rd) = some i → s.fault = none →
      step (t.setPc (effectiveAddress s rs)) = exec i (t.setPc (effectiveAddress s rs))

/-! ## Control transfers -/

/-- R111, R112. -/
def Obligations.BeqzAndBnezBranch : Prop :=
  EncodedBy 0xF800#16 0x8000#16 (fun w => .beqz (rdField w) (immField w)) ∧
  EncodedBy 0xF800#16 0x8800#16 (fun w => .bnez (rdField w) (immField w)) ∧
  ∀ (rd : Reg) (imm : Byte) (s : State),
    (∃ t, exec (.beqz rd imm) s = .next t ∧ OnlyPcChanges s t ∧
      (readReg s rd = 0 → t.pc = branchTarget s imm) ∧ (readReg s rd ≠ 0 → Advances s t)) ∧
    (∃ t, exec (.bnez rd imm) s = .next t ∧ OnlyPcChanges s t ∧
      (readReg s rd ≠ 0 → t.pc = branchTarget s imm) ∧ (readReg s rd = 0 → Advances s t))

/-- R113, R114: the tests are of the register read as a signed number. -/
def Obligations.BmiAndBplBranch : Prop :=
  EncodedBy 0xF800#16 0x9000#16 (fun w => .bmi (rdField w) (immField w)) ∧
  EncodedBy 0xF800#16 0x9800#16 (fun w => .bpl (rdField w) (immField w)) ∧
  ∀ (rd : Reg) (imm : Byte) (s : State),
    (∃ t, exec (.bmi rd imm) s = .next t ∧ OnlyPcChanges s t ∧
      ((readReg s rd).toInt < 0 → t.pc = branchTarget s imm) ∧ (0 ≤ (readReg s rd).toInt → Advances s t)) ∧
    (∃ t, exec (.bpl rd imm) s = .next t ∧ OnlyPcChanges s t ∧
      (0 ≤ (readReg s rd).toInt → t.pc = branchTarget s imm) ∧ ((readReg s rd).toInt < 0 → Advances s t))

/-- R115. -/
def Obligations.JumpIsUnconditional : Prop :=
  EncodedBy 0xF800#16 0xC000#16 (fun w => .j (immField w)) ∧
  ∀ (imm : Byte) (s : State), (encode (.j imm)).toNat = 0xC000 + imm.toNat ∧
    ∃ t, exec (.j imm) s = .next t ∧ OnlyPcChanges s t ∧ t.pc = branchTarget s imm

/-- R110: where a taken control transfer goes, as a sum of integers reduced modulo 2^16, for both values of BRANCH_BASE
and of BRANCH_SCALE. -/
def Obligations.BranchTargetFormula : Prop :=
  ∀ (i : Instr) (imm : Byte) (s : State), transferImmediate i = some imm →
    ∃ t, exec i s = .next t ∧ (TransferTaken i s →
      (t.pc.toNat : Int) =
        ((s.pc.toNat : Int) + branchBaseInt s.cfg + branchScaleInt s.cfg * imm.toInt) % 65536)

/-- R116: a transfer never faults itself; if its target is odd the next step faults with that address; and the
immediate of a branch from `a` to `u` is the quotient the rule gives, where it is an integer in -128 to 127. That the
distance is the integer difference, not reduced modulo 2^16, so that there is no immediate in the other cases, is the
model's deduction from the rule (assumption log 25). -/
def Obligations.OddTargetsFaultLaterAndImmediatesReach : Prop :=
  (∀ (i : Instr) (imm : Byte) (s : State), transferImmediate i = some imm → s.fault = none →
    ∃ t, exec i s = .next t ∧ (TransferTaken i s → (branchTarget s imm).toNat % 2 = 1 →
      t.pc = branchTarget s imm ∧ step t = .fault (.fetchMisaligned (branchTarget s imm)))) ∧
  (∀ (s : State) (u : Word) (q : Int),
    (u.toNat : Int) - (s.pc.toNat : Int) - branchBaseInt s.cfg = branchScaleInt s.cfg * q →
    (-128 ≤ q ∧ q ≤ 127 →
      branchImmediate s.cfg s.pc u = some (BitVec.ofInt 8 q) ∧ branchTarget s (BitVec.ofInt 8 q) = u) ∧
    (¬ (-128 ≤ q ∧ q ≤ 127) → branchImmediate s.cfg s.pc u = none)) ∧
  ∀ (s : State) (u : Word),
    (∀ q : Int, (u.toNat : Int) - (s.pc.toNat : Int) - branchBaseInt s.cfg ≠ branchScaleInt s.cfg * q) →
    branchImmediate s.cfg s.pc u = none

/-! ## The step and its faults -/

/-- R146: when the word at an even, backed `pc` decodes to `i`, the step is the effect of `i`. -/
def Obligations.StepRunsTheDecodedInstruction : Prop :=
  ∀ (s : State) (i : Instr) (rest : List Byte), s.fault = none → s.pc.toNat % 2 = 0 → backed s.cfg s.pc = true →
    backed s.cfg (s.pc + 1) = true →
    decodeBytes s.cfg.byteOrder [readByte s s.pc, readByte s (s.pc + 1)] = .ok (i, rest) → step s = exec i s

/-- R125: a step raises exactly the fault the five checks give in their fixed order, which leaves the state unchanged but
for the fault status, and where they give none it answers a next state. -/
def Obligations.FaultsFollowTheFixedOrder : Prop :=
  ∀ s : State, s.fault = none →
    (∀ f, step s = .fault f ↔ expectedFault s = some f) ∧
    (∀ f, expectedFault s = some f → tick s = { s with fault := some f }) ∧
    (expectedFault s = none → ∃ t, step s = .next t)

/-- R120, R21: a fault changes nothing but the fault status; once set it stays, and the machine has no further step. -/
def Obligations.FaultsAreTerminalAndPrecise : Prop :=
  ∀ (s : State) (f : Fault), step s = .fault f →
    (s.fault = none → tick s = { s with fault := some f }) ∧
    (tick s).fault = some f ∧ step (tick s) = .fault f ∧ (∀ n, ticks n (tick s) = tick s) ∧ ¬ IsFixedPoint (tick s)

/-- R133, R146: the step answers a next state or one of the faults, and refuses nothing. -/
def Obligations.StepNeverRefuses : Prop :=
  ∀ s : State, (∃ t, step s = .next t) ∨ ∃ f, step s = .fault f

/-- The host's placing of a word at `pc` (R143, R36): the next step runs the instruction the decoder reads from it. -/
def Obligations.PlacedWordRunsNext : Prop :=
  ∀ (s : State) (w : Nat), w < 65536 → s.fault = none → s.pc.toNat % 2 = 0 → backed s.cfg s.pc = true →
    backed s.cfg (s.pc + 1) = true →
    match decodeTableWord 16 w with
    | some i => step (s.withFetchWord 16 w) = exec i (s.withFetchWord 16 w)
    | none => step (s.withFetchWord 16 w) = .fault (.illegalInstruction (BitVec.ofNat 16 w))

/-! ## Rules over all instructions -/

/-- R13, R12: a step changes no register but the destination of the instruction it executed. -/
def Obligations.OnlyTheDestinationChanges : Prop :=
  ∀ (s t : State) (r : Reg), step s = .next t → t.regs[r] ≠ s.regs[r] →
    ∃ i, fetchInstr s = .ok i ∧ destination i = some r

/-- R13, the "reads" columns: the effect of an instruction does not depend on a register it does not read. -/
def Obligations.UnreadRegistersDoNotMatter : Prop :=
  ∀ (i : Instr) (s : State) (r : Reg) (v : Word), r ∉ sources s.cfg i →
    (∀ f, exec i s = .fault f → exec i (s.setReg r v) = .fault f) ∧
    ∀ t, exec i s = .next t → ∃ u, exec i (s.setReg r v) = .next u ∧ u.pc = t.pc ∧ u.mem = t.mem ∧
      u.cfg = t.cfg ∧ u.fault = t.fault ∧ u.freeCount = t.freeCount ∧
      ∀ q : Reg, q ≠ r ∨ destination i = some q → readReg u q = readReg t q

/-- R39, R41: a step changes no byte of memory but those the `sw` or `sbu` it executed stores to. -/
def Obligations.OnlyStoresWriteMemory : Prop :=
  ∀ (s t : State) (a : Nat), step s = .next t → Memory.read t.mem a ≠ Memory.read s.mem a →
    ∃ i, fetchInstr s = .ok i ∧ ∃ w ∈ storedBytes i s, a = w.toNat

/-- R15: an instruction that is no taken transfer advances `pc` by 2 modulo 2^16; a taken one goes to its target. -/
def Obligations.PcAdvancesUnlessTransferred : Prop :=
  ∀ (i : Instr) (s t : State), exec i s = .next t →
    (¬ TransferTaken i s → Advances s t) ∧
    (TransferTaken i s → ∃ imm, transferImmediate i = some imm ∧ t.pc = branchTarget s imm)

/-- R144: the fixed points are the taken transfers to their own address, and there are no others. -/
def Obligations.FixedPointsAreSelfTransfers : Prop :=
  ∀ s : State, IsFixedPoint s ↔ s.fault = none ∧ ∃ i imm, fetchInstr s = .ok i ∧
    transferImmediate i = some imm ∧ TransferTaken i s ∧ branchTarget s imm = s.pc

/-- R144: a run has at most one end, and a run that ends at a fixed point raises no fault at any step. -/
def Obligations.TheEndOfARunIsUniqueAndSafe : Prop :=
  ∀ s t : State, EndsAt s t → (∀ u, EndsAt s u → u = t) ∧ ∀ n, SafeFor n s

/-- R12: at `REG0_ZERO = true` register 0 reads as zero and writes to it are discarded, by every instruction; every other
register, and register 0 at `false`, holds what was written to it. -/
def Obligations.HardwiredRegisterZero : Prop :=
  ∀ (s : State),
    (s.cfg.reg0Zero = true → readReg s 0 = 0 ∧ (∀ v, writeReg s 0 v = s) ∧
      ∀ i t, exec i s = .next t → readReg t 0 = 0 ∧ t.regs[(0 : Reg)] = s.regs[(0 : Reg)]) ∧
    ∀ (r : Reg) (v : Word), s.cfg.reg0Zero = false ∨ r ≠ 0 → readReg (writeReg s r v) r = v

/-- R142: every initialisation idiom of the table, under the readings it is given for. -/
def Obligations.InitialisationIdioms : Prop :=
  ∀ (s : State) (rd rs : Reg) (hi lo c : Byte),
    Leaves [.xor rd rd] s rd 0 ∧
    Leaves [.andi rd 0] s rd 0 ∧
    Leaves [.xor rd rd, .ori rd c] s rd (joinBytes 0 c) ∧
    Leaves [.lli rd c, .andi rd 0xFF#8] s rd (joinBytes 0 c) ∧
    (s.cfg.luiOther = .preserve ∨ s.cfg.luiOther = .zero →
      Leaves [.xor rd rd, .lui rd hi, .ori rd lo] s rd (joinBytes hi lo)) ∧
    Leaves [.lui rd hi, .sr8 rd rd, .sl8 rd rd, .ori rd lo] s rd (joinBytes hi lo) ∧
    (s.cfg.lliOther = .preserve → s.cfg.luiOther = .preserve →
      Leaves [.lli rd lo, .lui rd hi] s rd (joinBytes hi lo) ∧
      Leaves [.lui rd hi, .lli rd lo] s rd (joinBytes hi lo)) ∧
    (s.cfg.luiOther = .zero → Leaves [.lui rd hi, .ori rd lo] s rd (joinBytes hi lo)) ∧
    (s.cfg.luiOther = .preserve →
      Leaves [.lui rd hi, .ori rd lo] s rd (joinBytes hi (lowByte (readReg s rd) ||| lo))) ∧
    (backed s.cfg (readReg s rs) = true →
      Leaves [.lbu rd rs, .andi rd 0xFF#8] s rd (joinBytes 0 (readByte s (readReg s rs)))) ∧
    Leaves [.not rd rs, .addi rd 1] s rd (BitVec.ofInt 16 (-((readReg s rs).toNat : Int))) ∧
    (s.cfg.branchBase = .zero → exec (.j 0) s = .next s) ∧
    (s.cfg.branchBase = .two → s.cfg.branchScale = .one → exec (.j 0xFE#8) s = .next s) ∧
    (s.cfg.branchBase = .two → s.cfg.branchScale = .two → exec (.j 0xFF#8) s = .next s)

/-- 95_test_vectors.md section 4: a shift by eight is eight shifts by one, `not` twice restores, `sub rd, rd` clears. -/
def Obligations.RepeatedShiftsAndNots : Prop :=
  ∀ (s : State) (rd rs : Reg),
    Leaves (.sl rd rs :: List.replicate 7 (.sl rd rd)) s rd (joinBytes (lowByte (readReg s rs)) 0) ∧
    Leaves [.sl8 rd rs] s rd (joinBytes (lowByte (readReg s rs)) 0) ∧
    Leaves (.sr rd rs :: List.replicate 7 (.sr rd rd)) s rd (joinBytes 0 (highByte (readReg s rs))) ∧
    Leaves [.sr8 rd rs] s rd (joinBytes 0 (highByte (readReg s rs))) ∧
    Leaves [.not rd rs, .not rd rd] s rd (readReg s rs) ∧
    Leaves [.sub rd rd] s rd 0

/-! ## Memory, invariants and reset -/

/-- R19, R41: memory is its bytes: two memories in canonical form that read alike everywhere are the same data. -/
def Obligations.MemoryIsItsBytes : Prop :=
  ∀ m k : Memory, Memory.wf m → Memory.wf k → (∀ a, Memory.read m a = Memory.read k a) → m = k

/-- Every step keeps the memory in its canonical form, from every state that has it. -/
def Obligations.StepKeepsMemoryCanonical : Prop :=
  ∀ s t : State, MemoryCanonical s → step s = .next t → MemoryCanonical t

/-- The memory after reset, and after any launch, is in canonical form. -/
def Obligations.LaunchMemoryIsCanonical : Prop :=
  MemoryCanonical State.reset ∧ ∀ l : Launch, MemoryCanonical (launch l)

/-- R7, R21: a step that answers a next state starts and ends with fault status none, and writes no parameter. -/
def Obligations.StepKeepsParametersAndStatus : Prop :=
  ∀ s t : State, step s = .next t → s.fault = none ∧ t.fault = none ∧ t.cfg = s.cfg

/-- R110, 92_eei_decisions.md D6: at BRANCH_SCALE = 2 every target of an even `pc` is even, so `pc` stays even. -/
def Obligations.PcStaysEvenAtScaleTwo : Prop :=
  ∀ s t : State, s.cfg.branchScale = .two ∧ s.pc.toNat % 2 = 0 → step s = .next t →
    t.cfg.branchScale = .two ∧ t.pc.toNat % 2 = 0

/-- R22, R21: `pc` is RESET_PC after every launch, 0x0000 (an even address) at the default, and the fault status is
none. -/
def Obligations.ResetEstablishesPcAndStatus : Prop :=
  State.reset.pc = 0x0000#16 ∧ State.reset.fault = none ∧ State.reset.cfg.resetPcEven = true ∧
  ∀ l : Launch, (launch l).pc = l.cfg.resetPc ∧ (launch l).fault = none

/-- R140, R143: a launch establishes the chosen registers, and every byte of the image holds its value. -/
def Obligations.LaunchHoldsTheImage : Prop :=
  ∀ l : Launch, (launch l).regs = l.regs ∧ (launch l).cfg = l.cfg ∧
    ((l.cells.map Prod.fst).Nodup → ∀ c ∈ l.cells, readByte (launch l) c.1 = c.2)

/-- R143: a program image lies at consecutive even addresses from RESET_PC, each word as `MemWrite(a, 2, W)` lays it, so
that fetching at the address of word `n` reads word `n`. -/
def Obligations.ImageWordsAreFetched : Prop :=
  ∀ (c : Config) (regs : Vector Word 8) (ws : List Word) (n : Nat) (h : n < ws.length), ws.length ≤ 32768 →
    readWord (launch ⟨c, regs, programImage c ws⟩) (c.resetPc + BitVec.ofNat 16 (2 * n)) = ws[n]

/-- R63: the field of an immediate written as a number. -/
def Obligations.ImmediateNotation : Prop :=
  ∀ n : Int,
    (-128 ≤ n ∧ n ≤ 255 → ∃ b, immediateField n = some b ∧ (b.toNat : Int) = if n < 0 then 256 + n else n) ∧
    (¬ (-128 ≤ n ∧ n ≤ 255) → immediateField n = none)
end

