-- ==== Sys2Proof/Laws/Encoding.lean ====
section
/-! SUPPORT. The bytes of a word, and the fields of an encoded word, as numbers. -/

namespace Sys2Proof

/-- A concatenation as a number (00_scope.md section 6). -/
theorem append_toNat {n m : Nat} (a : BitVec n) (b : BitVec m) : (a ++ b).toNat = a.toNat * 2 ^ m + b.toNat := by
  rw [BitVec.toNat_append, Nat.shiftLeft_eq, Nat.mul_comm, ← Nat.two_pow_add_eq_or_of_lt b.isLt]

/-! ### Bytes -/

theorem joinBytes_toNat (hi lo : Byte) : (joinBytes hi lo).toNat = hi.toNat * 256 + lo.toNat :=
  append_toNat hi lo

theorem lowByte_toNat (w : Word) : (lowByte w).toNat = w.toNat % 256 := by
  simp [lowByte, BitVec.extractLsb'_toNat]

theorem highByte_toNat (w : Word) : (highByte w).toNat = w.toNat / 256 := by
  have := w.isLt
  simp only [highByte, BitVec.extractLsb'_toNat, Nat.shiftRight_eq_div_pow]
  omega

@[simp] theorem highByte_joinBytes (hi lo : Byte) : highByte (joinBytes hi lo) = hi := by
  apply BitVec.eq_of_toNat_eq
  have := lo.isLt
  rw [highByte_toNat, joinBytes_toNat]
  omega

@[simp] theorem lowByte_joinBytes (hi lo : Byte) : lowByte (joinBytes hi lo) = lo := by
  apply BitVec.eq_of_toNat_eq
  have := lo.isLt
  rw [lowByte_toNat, joinBytes_toNat]
  omega

/-- A word is its two bytes. -/
@[simp] theorem joinBytes_highByte_lowByte (w : Word) : joinBytes (highByte w) (lowByte w) = w := by
  apply BitVec.eq_of_toNat_eq
  rw [joinBytes_toNat, highByte_toNat, lowByte_toNat]
  omega

@[simp] theorem wordOfBytes_split (o : ByteOrder) (v : Word) :
    wordOfBytes o (firstByte o v) (secondByte o v) = v := by
  cases o <;> exact joinBytes_highByte_lowByte v

@[simp] theorem firstByte_wordOfBytes (o : ByteOrder) (b0 b1 : Byte) : firstByte o (wordOfBytes o b0 b1) = b0 := by
  cases o
  · exact highByte_joinBytes b0 b1
  · exact lowByte_joinBytes b1 b0

@[simp] theorem secondByte_wordOfBytes (o : ByteOrder) (b0 b1 : Byte) :
    secondByte o (wordOfBytes o b0 b1) = b1 := by
  cases o
  · exact lowByte_joinBytes b0 b1
  · exact highByte_joinBytes b1 b0

theorem joinBytes_and (a b c d : Byte) : joinBytes a b &&& joinBytes c d = joinBytes (a &&& c) (b &&& d) :=
  BitVec.and_append

theorem joinBytes_or (a b c d : Byte) : joinBytes a b ||| joinBytes c d = joinBytes (a ||| c) (b ||| d) :=
  BitVec.or_append

theorem joinBytes_xor (a b c d : Byte) : joinBytes a b ^^^ joinBytes c d = joinBytes (a ^^^ c) (b ^^^ d) :=
  BitVec.xor_append

/-! ### Fields of a word -/

theorem opField_toNat (w : Word) : (opField w).toNat = w.toNat / 2048 := by
  have := w.isLt
  simp only [opField, BitVec.extractLsb'_toNat, Nat.shiftRight_eq_div_pow]
  omega

theorem rdField_val (w : Word) : (rdField w).val = w.toNat / 256 % 8 := by
  change (w.extractLsb' 8 3).toNat = _
  simp only [BitVec.extractLsb'_toNat, Nat.shiftRight_eq_div_pow]

theorem rsField_val (w : Word) : (rsField w).val = w.toNat / 32 % 8 := by
  change (w.extractLsb' 5 3).toNat = _
  simp only [BitVec.extractLsb'_toNat, Nat.shiftRight_eq_div_pow]

theorem functField_toNat (w : Word) : (functField w).toNat = w.toNat % 32 := by
  simp [functField, BitVec.extractLsb'_toNat]

theorem immField_toNat (w : Word) : (immField w).toNat = w.toNat % 256 := by
  simp [immField, BitVec.extractLsb'_toNat]

/-! ### Encoded words (R52, R53, R57) -/

theorem encodeRegister_toNat (f : BitVec 5) (rd rs : Reg) :
    (encodeRegister f rd rs).toNat = rd.val * 256 + rs.val * 32 + f.toNat := by
  simp only [encodeRegister, append_toNat, BitVec.toNat_ofNat]
  omega

theorem encodeImmediate_toNat (op : BitVec 5) (rd : Reg) (imm : Byte) :
    (encodeImmediate op rd imm).toNat = op.toNat * 2048 + rd.val * 256 + imm.toNat := by
  simp only [encodeImmediate, append_toNat, BitVec.toNat_ofNat]
  omega

@[simp] theorem opField_encodeRegister (f : BitVec 5) (rd rs : Reg) : opField (encodeRegister f rd rs) = 0#5 := by
  apply BitVec.eq_of_toNat_eq
  have := f.isLt
  rw [opField_toNat, encodeRegister_toNat]
  simp
  omega

@[simp] theorem functField_encodeRegister (f : BitVec 5) (rd rs : Reg) :
    functField (encodeRegister f rd rs) = f := by
  apply BitVec.eq_of_toNat_eq
  have := f.isLt
  rw [functField_toNat, encodeRegister_toNat]
  omega

@[simp] theorem rdField_encodeRegister (f : BitVec 5) (rd rs : Reg) : rdField (encodeRegister f rd rs) = rd := by
  apply Fin.ext
  have := f.isLt
  rw [rdField_val, encodeRegister_toNat]
  omega

@[simp] theorem rsField_encodeRegister (f : BitVec 5) (rd rs : Reg) : rsField (encodeRegister f rd rs) = rs := by
  apply Fin.ext
  have := f.isLt
  rw [rsField_val, encodeRegister_toNat]
  omega

@[simp] theorem opField_encodeImmediate (op : BitVec 5) (rd : Reg) (imm : Byte) :
    opField (encodeImmediate op rd imm) = op := by
  apply BitVec.eq_of_toNat_eq
  have := imm.isLt
  rw [opField_toNat, encodeImmediate_toNat]
  omega

@[simp] theorem rdField_encodeImmediate (op : BitVec 5) (rd : Reg) (imm : Byte) :
    rdField (encodeImmediate op rd imm) = rd := by
  apply Fin.ext
  have := imm.isLt
  rw [rdField_val, encodeImmediate_toNat]
  omega

@[simp] theorem immField_encodeImmediate (op : BitVec 5) (rd : Reg) (imm : Byte) :
    immField (encodeImmediate op rd imm) = imm := by
  apply BitVec.eq_of_toNat_eq
  rw [immField_toNat, encodeImmediate_toNat]
  have := imm.isLt
  omega

/-! ### Masks (R57) -/

/-- The bits under the mask of an I-format row. -/
theorem and_immediate_mask (w : Word) : w &&& 0xF800#16 = opField w ++ 0#11 := by
  apply BitVec.eq_of_getLsbD_eq
  intro i hi
  refine Eq.trans ?_ (BitVec.getLsbD_append (x := opField w) (y := 0#11) (i := i)).symm
  simp only [opField]
  interval_cases i <;> simp

/-- The bits under the mask of an R-format row. -/
theorem and_register_mask (w : Word) : w &&& 0xF81F#16 = opField w ++ 0#6 ++ functField w := by
  apply BitVec.eq_of_getLsbD_eq
  intro i hi
  refine Eq.trans ?_ (BitVec.getLsbD_append (x := opField w ++ 0#6) (y := functField w) (i := i)).symm
  rw [BitVec.getLsbD_append]
  simp only [opField, functField]
  interval_cases i <;> simp

theorem append_inj {n m : Nat} {a a' : BitVec n} {b b' : BitVec m} (h : a ++ b = a' ++ b') : a = a' ∧ b = b' := by
  have h := congrArg BitVec.toNat h
  rw [append_toNat, append_toNat] at h
  have hb := b.isLt
  have hb' := b'.isLt
  have ha : a.toNat = a'.toNat := by
    have h1 := congrArg (· / 2 ^ m) h
    have hp : 0 < 2 ^ m := Nat.two_pow_pos m
    simpa [Nat.mul_add_div hp, Nat.mul_comm _ (2 ^ m), Nat.div_eq_of_lt hb, Nat.div_eq_of_lt hb'] using h1
  refine ⟨BitVec.eq_of_toNat_eq ha, BitVec.eq_of_toNat_eq ?_⟩
  rw [ha] at h
  omega

/-- A word of an I-format row is one whose opcode field is the row's (R53, R57). -/
theorem immediate_mask_iff (w : Word) {bits : Word} {op : BitVec 5} (h : op ++ 0#11 = bits) :
    w &&& 0xF800#16 = bits ↔ opField w = op := by
  rw [and_immediate_mask, ← h]
  exact ⟨fun h => (append_inj h).1, fun h => by rw [h]⟩

/-- A word of an R-format row is one whose opcode field is zero and whose function code is the row's (R52, R57). -/
theorem register_mask_iff (w : Word) {bits : Word} {f : BitVec 5} (h : 0#5 ++ 0#6 ++ f = bits) :
    w &&& 0xF81F#16 = bits ↔ opField w = 0#5 ∧ functField w = f := by
  rw [and_register_mask, ← h]
  refine ⟨fun h => ?_, fun h => by rw [h.1, h.2]⟩
  exact ⟨(append_inj (append_inj h).1).1, (append_inj h).2⟩

/-- The code of an instruction: its function code in the R-format, its opcode in the I-format (R57). -/
def codeOf : Instr → BitVec 5
  | .nop => 0 | .mov _ _ => 1 | .not _ _ => 2 | .xor _ _ => 3 | .add _ _ => 4 | .sub _ _ => 5 | .sl8 _ _ => 6
  | .sr8 _ _ => 7 | .sl _ _ => 8 | .sr _ _ => 9 | .and _ _ => 10 | .or _ _ => 11 | .sw _ _ => 16 | .lw _ _ => 17
  | .sbu _ _ => 18 | .lbu _ _ => 19 | .lli _ _ => 1 | .xori _ _ => 3 | .addi _ _ => 4 | .lui _ _ => 6
  | .andi _ _ => 10 | .ori _ _ => 11 | .beqz _ _ => 16 | .bnez _ _ => 17 | .bmi _ _ => 18 | .bpl _ _ => 19 | .j _ => 24

/-- What a word decodes to has the function code of the word, and its operands are the word's fields (R52, R56). -/
theorem decodeRegister_eq_some {w : Word} {i : Instr} (h : decodeRegister w = some i) :
    functField w = codeOf i ∧
      (i = .nop ∨ encode i = encodeRegister (functField w) (rdField w) (rsField w)) ∧
      (opcodeRow i).1 = 0xF81F#16 := by
  unfold decodeRegister at h
  split at h <;> first | (cases h; done) | skip
  all_goals
    rename_i hf
    cases h
    first
      | exact ⟨hf, .inl rfl, rfl⟩
      | exact ⟨hf, .inr (by rw [hf]; rfl), rfl⟩

/-- What a word decodes to has the opcode of the word, and its operands are the word's fields (R53, R56). -/
theorem decodeImmediate_eq_some {w : Word} {i : Instr} (h : decodeImmediate w = some i) :
    opField w = codeOf i ∧
      (i = .j (immField w) ∨ encode i = encodeImmediate (opField w) (rdField w) (immField w)) ∧
      (opcodeRow i).1 = 0xF800#16 := by
  unfold decodeImmediate at h
  split at h <;> first | (cases h; done) | skip
  all_goals
    rename_i hf
    cases h
    first
      | exact ⟨hf, .inl rfl, rfl⟩
      | exact ⟨hf, .inr (by rw [hf]; rfl), rfl⟩

/-- A word of the R-format is the encoding of its fields (R52). -/
theorem encodeRegister_fields {w : Word} (h : opField w = 0#5) :
    encodeRegister (functField w) (rdField w) (rsField w) = w := by
  apply BitVec.eq_of_toNat_eq
  have h := congrArg BitVec.toNat h
  rw [opField_toNat] at h
  rw [encodeRegister_toNat, rdField_val, rsField_val, functField_toNat]
  simp at h
  omega

/-- A word is the I-format encoding of its fields (R53). -/
theorem encodeImmediate_fields (w : Word) : encodeImmediate (opField w) (rdField w) (immField w) = w := by
  apply BitVec.eq_of_toNat_eq
  rw [encodeImmediate_toNat, rdField_val, immField_toNat, opField_toNat]
  omega

end Sys2Proof
end

