-- ==== Sys2Proof/Laws/Ops.lean ====
section
/-! SUPPORT. What each shared operation of Machine/Ops.lean and Machine/Operands.lean does, said once. -/

namespace Sys2Proof.Machine

variable (s : State)

/-! ### Addresses -/

theorem isEven_iff (a : Word) : isEven a = true ↔ a.toNat % 2 = 0 := by
  unfold isEven
  rw [BitVec.getLsbD, Nat.testBit_zero]
  simp

theorem isEven_eq_false_iff (a : Word) : isEven a = false ↔ a.toNat % 2 = 1 := by
  have h := isEven_iff a
  cases he : isEven a <;> simp_all

theorem succ_toNat_ne (a : Word) : (a + 1).toNat ≠ a.toNat := by
  have := a.isLt
  rw [BitVec.toNat_add]
  simp
  omega

/-- An even word address has its second byte at the next number (R35: it never wraps). -/
theorem succ_toNat_of_even {a : Word} (h : a.toNat % 2 = 0) : (a + 1).toNat = a.toNat + 1 := by
  have := a.isLt
  rw [BitVec.toNat_add]
  simp
  omega

/-! ### Registers -/

@[simp] theorem writeReg_cfg (r : Reg) (v : Word) : (writeReg s r v).cfg = s.cfg := by
  unfold writeReg; split <;> rfl

@[simp] theorem writeReg_pc (r : Reg) (v : Word) : (writeReg s r v).pc = s.pc := by
  unfold writeReg; split <;> rfl

@[simp] theorem writeReg_mem (r : Reg) (v : Word) : (writeReg s r v).mem = s.mem := by
  unfold writeReg; split <;> rfl

@[simp] theorem writeReg_fault (r : Reg) (v : Word) : (writeReg s r v).fault = s.fault := by
  unfold writeReg; split <;> rfl

@[simp] theorem writeReg_freeCount (r : Reg) (v : Word) : (writeReg s r v).freeCount = s.freeCount := by
  unfold writeReg; split <;> rfl

theorem writeReg_of_hardwired {r : Reg} (v : Word) (h : hardwired s.cfg r = true) : writeReg s r v = s := by
  simp [writeReg, h]

theorem writeReg_regs_other {r q : Reg} (v : Word) (h : q ≠ r) : (writeReg s r v).regs[q] = s.regs[q] := by
  unfold writeReg
  split
  · rfl
  · have hv : r.val ≠ q.val := fun e => h (Fin.ext e.symm)
    simp [hv]

/-- What any register reads as after a write (R8, R12). -/
theorem readReg_writeReg (r q : Reg) (v : Word) :
    readReg (writeReg s r v) q = if q = r then (if hardwired s.cfg r then 0 else v) else readReg s q := by
  by_cases hq : q = r
  · subst hq
    rw [if_pos rfl]
    unfold readReg
    rw [writeReg_cfg]
    split
    · rfl
    · rename_i h
      simp [writeReg, h]
  · rw [if_neg hq]
    unfold readReg
    rw [writeReg_cfg, writeReg_regs_other s v hq]

/-- A register reads alike in two states with the same parameters and registers. -/
theorem readReg_congr {s t : State} (hc : t.cfg = s.cfg) (hr : t.regs = s.regs) (r : Reg) :
    readReg t r = readReg s r := by
  simp [readReg, hc, hr]

@[simp] theorem readReg_setPc (p : Word) (r : Reg) : readReg (s.setPc p) r = readReg s r := rfl

@[simp] theorem readReg_setMem (m : Memory) (r : Reg) : readReg (s.setMem m) r = readReg s r := rfl

@[simp] theorem readReg_setFreeCount (n : Nat) (r : Reg) : readReg (s.setFreeCount n) r = readReg s r := rfl

@[simp] theorem readReg_advance (r : Reg) : readReg (advance s) r = readReg s r := rfl

/-! ### The program counter -/

@[simp] theorem advance_cfg : (advance s).cfg = s.cfg := rfl
@[simp] theorem advance_regs : (advance s).regs = s.regs := rfl
@[simp] theorem advance_mem : (advance s).mem = s.mem := rfl
@[simp] theorem advance_fault : (advance s).fault = s.fault := rfl
@[simp] theorem advance_freeCount : (advance s).freeCount = s.freeCount := rfl
@[simp] theorem advance_pc : (advance s).pc = s.pc + 2 := rfl

@[simp] theorem jump_cfg (imm : Byte) : (jump s imm).cfg = s.cfg := rfl
@[simp] theorem jump_regs (imm : Byte) : (jump s imm).regs = s.regs := rfl
@[simp] theorem jump_mem (imm : Byte) : (jump s imm).mem = s.mem := rfl
@[simp] theorem jump_fault (imm : Byte) : (jump s imm).fault = s.fault := rfl
@[simp] theorem jump_freeCount (imm : Byte) : (jump s imm).freeCount = s.freeCount := rfl
@[simp] theorem jump_pc (imm : Byte) : (jump s imm).pc = branchTarget s imm := rfl

@[simp] theorem branch_cfg (b : Bool) (imm : Byte) : (branch b s imm).cfg = s.cfg := by cases b <;> rfl
@[simp] theorem branch_regs (b : Bool) (imm : Byte) : (branch b s imm).regs = s.regs := by cases b <;> rfl
@[simp] theorem branch_mem (b : Bool) (imm : Byte) : (branch b s imm).mem = s.mem := by cases b <;> rfl
@[simp] theorem branch_fault (b : Bool) (imm : Byte) : (branch b s imm).fault = s.fault := by cases b <;> rfl
@[simp] theorem branch_freeCount (b : Bool) (imm : Byte) : (branch b s imm).freeCount = s.freeCount := by
  cases b <;> rfl
@[simp] theorem branch_pc (b : Bool) (imm : Byte) :
    (branch b s imm).pc = if b then branchTarget s imm else s.pc + 2 := by cases b <;> rfl

/-! ### Writing a result -/

@[simp] theorem finish_cfg (r : Reg) (v : Word) : (finish s r v).cfg = s.cfg := by simp [finish]
@[simp] theorem finish_mem (r : Reg) (v : Word) : (finish s r v).mem = s.mem := by simp [finish]
@[simp] theorem finish_fault (r : Reg) (v : Word) : (finish s r v).fault = s.fault := by simp [finish]
@[simp] theorem finish_freeCount (r : Reg) (v : Word) : (finish s r v).freeCount = s.freeCount := by simp [finish]
@[simp] theorem finish_pc (r : Reg) (v : Word) : (finish s r v).pc = s.pc + 2 := by simp [finish]

theorem finish_regs_other {r q : Reg} (v : Word) (h : q ≠ r) : (finish s r v).regs[q] = s.regs[q] :=
  writeReg_regs_other s v h

theorem finish_regs_of_hardwired {r : Reg} (v : Word) (h : hardwired s.cfg r = true) :
    (finish s r v).regs = s.regs := by
  simp [finish, writeReg_of_hardwired s v h]

theorem readReg_finish (r q : Reg) (v : Word) :
    readReg (finish s r v) q = if q = r then (if hardwired s.cfg r then 0 else v) else readReg s q :=
  readReg_writeReg s r q v

/-! ### The byte an instruction does not name -/

@[simp] theorem drawOther_cfg (p : OtherByte) : (drawOther p s).cfg = s.cfg := by cases p <;> rfl
@[simp] theorem drawOther_regs (p : OtherByte) : (drawOther p s).regs = s.regs := by cases p <;> rfl
@[simp] theorem drawOther_pc (p : OtherByte) : (drawOther p s).pc = s.pc := by cases p <;> rfl
@[simp] theorem drawOther_mem (p : OtherByte) : (drawOther p s).mem = s.mem := by cases p <;> rfl
@[simp] theorem drawOther_fault (p : OtherByte) : (drawOther p s).fault = s.fault := by cases p <;> rfl

/-! ### Memory -/

@[simp] theorem writeByte_cfg (a : Word) (v : Byte) : (writeByte s a v).cfg = s.cfg := rfl
@[simp] theorem writeByte_regs (a : Word) (v : Byte) : (writeByte s a v).regs = s.regs := rfl
@[simp] theorem writeByte_pc (a : Word) (v : Byte) : (writeByte s a v).pc = s.pc := rfl
@[simp] theorem writeByte_fault (a : Word) (v : Byte) : (writeByte s a v).fault = s.fault := rfl
@[simp] theorem writeByte_freeCount (a : Word) (v : Byte) : (writeByte s a v).freeCount = s.freeCount := rfl

@[simp] theorem writeWord_cfg (a v : Word) : (writeWord s a v).cfg = s.cfg := rfl
@[simp] theorem writeWord_regs (a v : Word) : (writeWord s a v).regs = s.regs := rfl
@[simp] theorem writeWord_pc (a v : Word) : (writeWord s a v).pc = s.pc := rfl
@[simp] theorem writeWord_fault (a v : Word) : (writeWord s a v).fault = s.fault := rfl
@[simp] theorem writeWord_freeCount (a v : Word) : (writeWord s a v).freeCount = s.freeCount := rfl

/-- Every byte of memory after a byte write (R34). -/
theorem read_writeByte (a : Word) (v : Byte) (b : Nat) :
    Memory.read (writeByte s a v).mem b = if b = a.toNat then v else Memory.read s.mem b :=
  Memory.read_write s.mem a.toNat b v

/-- Every byte of memory after a word write (R35), at any address. -/
theorem read_writeWord (a v : Word) (b : Nat) :
    Memory.read (writeWord s a v).mem b =
      if b = (a + 1).toNat then secondByte s.cfg.byteOrder v
      else if b = a.toNat then firstByte s.cfg.byteOrder v else Memory.read s.mem b := by
  unfold writeWord
  rw [read_writeByte, read_writeByte]

/-- Every byte after a byte write, by address (R34). -/
theorem readByte_writeByte (a b : Word) (v : Byte) :
    readByte (writeByte s a v) b = if b = a then v else readByte s b := by
  simp only [readByte, read_writeByte, ← BitVec.toNat_eq]

/-- Every byte after a word write, by address (R35, R42). -/
theorem readByte_writeWord (a v b : Word) :
    readByte (writeWord s a v) b =
      if b = a + 1 then secondByte s.cfg.byteOrder v
      else if b = a then firstByte s.cfg.byteOrder v else readByte s b := by
  unfold writeWord
  rw [readByte_writeByte, readByte_writeByte]

theorem succ_ne (a : Word) : a + 1 ≠ a := fun h => succ_toNat_ne a (congrArg BitVec.toNat h)

theorem writeByte_mem_wf {a : Word} {v : Byte} (h : Memory.wf s.mem) : Memory.wf (writeByte s a v).mem :=
  Memory.write_wf v h a.isLt

theorem writeWord_mem_wf {a v : Word} (h : Memory.wf s.mem) : Memory.wf (writeWord s a v).mem :=
  writeByte_mem_wf _ (writeByte_mem_wf _ h)

/-- Reading back a word that was written (R35, R43). -/
@[simp] theorem readWord_writeWord (a v : Word) : readWord (writeWord s a v) a = v := by
  simp only [readWord, readByte, read_writeWord, writeWord_cfg, if_true]
  rw [if_neg (Ne.symm (succ_toNat_ne a)), wordOfBytes_split]

@[simp] theorem readByte_setPc (p a : Word) : readByte (s.setPc p) a = readByte s a := rfl
@[simp] theorem readWord_setPc (p a : Word) : readWord (s.setPc p) a = readWord s a := rfl
@[simp] theorem readByte_advance (a : Word) : readByte (advance s) a = readByte s a := rfl
@[simp] theorem readWord_advance (a : Word) : readWord (advance s) a = readWord s a := rfl
@[simp] theorem fetchWord_setPc (p : Word) : fetchWord (s.setPc p) = readWord s p := rfl

/-! ### Widened immediates -/

@[simp] theorem sext16_toInt (v : Byte) : (sext16 v).toInt = v.toInt :=
  BitVec.toInt_signExtend_of_le (by omega)

/-- The sign-extended immediate is the word of its signed value (R8). -/
theorem sext16_eq_ofInt (v : Byte) : sext16 v = BitVec.ofInt 16 v.toInt := by
  rw [← sext16_toInt, BitVec.ofInt_toInt]

/-- A word is the word of its unsigned value (00_scope.md section 6). -/
theorem word_eq_ofInt (w : Word) : w = BitVec.ofInt 16 (w.toNat : Int) := by
  rw [BitVec.ofInt_natCast, BitVec.ofNat_toNat, BitVec.setWidth_eq]

@[simp] theorem zext16_toNat (v : Byte) : (zext16 v).toNat = v.toNat :=
  BitVec.toNat_setWidth_of_le (by omega)

theorem zext16_eq_joinBytes (v : Byte) : zext16 v = joinBytes 0x00#8 v := by
  apply BitVec.eq_of_toNat_eq
  rw [zext16_toNat, joinBytes_toNat]
  simp

/-! ### What an access raises -/

/-- What an access raises depends on the parameters alone. -/
theorem byteFault_congr {s t : State} (h : t.cfg = s.cfg) (a : Word) : byteFault t a = byteFault s a := by
  simp only [byteFault, h]

theorem dataWordFault_congr {s t : State} (h : t.cfg = s.cfg) (ea : Word) :
    dataWordFault t ea = dataWordFault s ea := by
  simp only [dataWordFault, wordFault, byteFault, h]

theorem dataWordFault_of_odd {ea : Word} (h : ea.toNat % 2 = 1) :
    dataWordFault s ea = some (.misalignedAccess ea) := by
  rw [dataWordFault, (isEven_eq_false_iff ea).mpr h]
  rfl

theorem dataWordFault_of_even {ea : Word} (h : ea.toNat % 2 = 0) : dataWordFault s ea = wordFault s ea := by
  rw [dataWordFault, (isEven_iff ea).mpr h]
  rfl

theorem byteFault_eq_none_iff (a : Word) : byteFault s a = none ↔ backed s.cfg a = true := by
  unfold byteFault; split <;> simp_all

theorem wordFault_eq_none_iff (a : Word) :
    wordFault s a = none ↔ backed s.cfg a = true ∧ backed s.cfg (a + 1) = true := by
  unfold wordFault byteFault
  cases backed s.cfg a <;> cases backed s.cfg (a + 1) <;> simp

/-- `lw` and `sw` access memory exactly at an even address whose two bytes are backed (R100). -/
theorem dataWordFault_eq_none_iff (ea : Word) :
    dataWordFault s ea = none ↔
      ea.toNat % 2 = 0 ∧ backed s.cfg ea = true ∧ backed s.cfg (ea + 1) = true := by
  unfold dataWordFault
  split
  · rename_i h
    rw [wordFault_eq_none_iff, (isEven_iff ea).mp h]
    simp
  · rename_i h
    have h : ea.toNat % 2 = 1 := (isEven_eq_false_iff ea).mp (by simpa using h)
    simp [h]

/-- A fetch finds its word exactly at an even `pc` whose two bytes are backed (R146). -/
theorem fetchFault_eq_none_iff :
    fetchFault s = none ↔ s.pc.toNat % 2 = 0 ∧ backed s.cfg s.pc = true ∧ backed s.cfg (s.pc + 1) = true := by
  unfold fetchFault
  split
  · rename_i h
    rw [wordFault_eq_none_iff, (isEven_iff s.pc).mp h]
    simp
  · rename_i h
    have h : s.pc.toNat % 2 = 1 := (isEven_eq_false_iff s.pc).mp (by simpa using h)
    simp [h]

/-! ### Fetching -/

/-- The decoder on the two bytes at `pc` is the decoder on the word there (R36, R56). -/
theorem decodeBytes_pair (o : ByteOrder) (b0 b1 : Byte) :
    decodeBytes o [b0, b1] =
      match decodeWord (wordOfBytes o b0 b1) with
      | some i => .ok (i, [])
      | none => .error (.illegal (wordOfBytes o b0 b1)) := rfl

/-- Fetching in terms of the word at `pc` (R146, R121, R123, R124). -/
theorem fetchInstr_eq :
    fetchInstr s =
      match fetchFault s with
      | some f => .error f
      | none =>
        match decodeWord (fetchWord s) with
        | some i => .ok i
        | none => .error (.illegalInstruction (fetchWord s)) := by
  unfold fetchInstr
  cases fetchFault s with
  | some f => rfl
  | none =>
    simp only [decodeBytes_pair]
    rw [show wordOfBytes s.cfg.byteOrder (readByte s s.pc) (readByte s (s.pc + 1)) = fetchWord s from rfl]
    cases decodeWord (fetchWord s) <;> rfl

end Sys2Proof.Machine
end

