-- ==== Sys2Proof/Laws/PerInstr.lean ====
section
/-! SUPPORT. One statement per instruction, about it as syntax: the encoding of every instruction lies in its row of the
opcode map (30_encoding.md R57). -/

namespace Sys2Proof.Laws.EncodingMatchesRow

/-- The bits of the encoding under the row's mask are the row's match. -/
def Statement (i : Instr) : Prop := encode i &&& (opcodeRow i).1 = (opcodeRow i).2

theorem of_register (f : BitVec 5) (rd rs : Reg) :
    encodeRegister f rd rs &&& 0xF81F#16 = 0#5 ++ 0#6 ++ f :=
  (register_mask_iff _ rfl).mpr (by simp)

theorem of_immediate (op : BitVec 5) (rd : Reg) (imm : Byte) :
    encodeImmediate op rd imm &&& 0xF800#16 = op ++ 0#11 :=
  (immediate_mask_iff _ rfl).mpr (by simp)

theorem nop : Statement .nop := of_register _ 0 0
theorem mov (rd rs : Reg) : Statement (.mov rd rs) := of_register _ rd rs
theorem not (rd rs : Reg) : Statement (.not rd rs) := of_register _ rd rs
theorem xor (rd rs : Reg) : Statement (.xor rd rs) := of_register _ rd rs
theorem add (rd rs : Reg) : Statement (.add rd rs) := of_register _ rd rs
theorem sub (rd rs : Reg) : Statement (.sub rd rs) := of_register _ rd rs
theorem sl8 (rd rs : Reg) : Statement (.sl8 rd rs) := of_register _ rd rs
theorem sr8 (rd rs : Reg) : Statement (.sr8 rd rs) := of_register _ rd rs
theorem sl (rd rs : Reg) : Statement (.sl rd rs) := of_register _ rd rs
theorem sr (rd rs : Reg) : Statement (.sr rd rs) := of_register _ rd rs
theorem and (rd rs : Reg) : Statement (.and rd rs) := of_register _ rd rs
theorem or (rd rs : Reg) : Statement (.or rd rs) := of_register _ rd rs
theorem sw (rd rs : Reg) : Statement (.sw rd rs) := of_register _ rd rs
theorem lw (rd rs : Reg) : Statement (.lw rd rs) := of_register _ rd rs
theorem sbu (rd rs : Reg) : Statement (.sbu rd rs) := of_register _ rd rs
theorem lbu (rd rs : Reg) : Statement (.lbu rd rs) := of_register _ rd rs
theorem lli (rd : Reg) (imm : Byte) : Statement (.lli rd imm) := of_immediate _ rd imm
theorem xori (rd : Reg) (imm : Byte) : Statement (.xori rd imm) := of_immediate _ rd imm
theorem addi (rd : Reg) (imm : Byte) : Statement (.addi rd imm) := of_immediate _ rd imm
theorem lui (rd : Reg) (imm : Byte) : Statement (.lui rd imm) := of_immediate _ rd imm
theorem andi (rd : Reg) (imm : Byte) : Statement (.andi rd imm) := of_immediate _ rd imm
theorem ori (rd : Reg) (imm : Byte) : Statement (.ori rd imm) := of_immediate _ rd imm
theorem beqz (rd : Reg) (imm : Byte) : Statement (.beqz rd imm) := of_immediate _ rd imm
theorem bnez (rd : Reg) (imm : Byte) : Statement (.bnez rd imm) := of_immediate _ rd imm
theorem bmi (rd : Reg) (imm : Byte) : Statement (.bmi rd imm) := of_immediate _ rd imm
theorem bpl (rd : Reg) (imm : Byte) : Statement (.bpl rd imm) := of_immediate _ rd imm
theorem j (imm : Byte) : Statement (.j imm) := of_immediate _ 0 imm

end Sys2Proof.Laws.EncodingMatchesRow
end

