-- ==== Sys2Proof/Laws/Results.lean ====
section
/-! SUPPORT. What every instruction and every step can do: the effect of writing a result, of a branch and of a store, and
the cases of `exec` and of `step` (R70, R90, R100, R110, R146). -/

namespace Sys2Proof.Machine

variable {s t : State} {i : Instr}

/-- `pc + 2` as a number (R15). -/
theorem advances_of_pc (h : t.pc = s.pc + 2) : Advances s t := by
  unfold Advances
  rw [h, BitVec.toNat_add]
  rfl

theorem advance_ne_pc (p : Word) : p + 2 ≠ p := by
  intro h
  have h := congrArg BitVec.toNat h
  rw [BitVec.toNat_add] at h
  have := p.isLt
  simp at h
  omega

/-- Writing a result after drawing the other byte: the register, and everything that stays (R70, R90, R100). -/
theorem finish_drawOther_computesInto (s : State) (p : OtherByte) (rd : Reg) (v : Word) :
    ComputesInto s (finish (drawOther p s) rd v) rd v (drawsOf p) := by
  refine ⟨⟨fun h => ?_, fun h => ⟨?_, ?_⟩, fun r hr => ?_⟩, advances_of_pc ?_, fun a => ?_, ?_, ?_, ?_⟩
  · simp [readReg_finish, h]
  · simp [readReg_finish, h]
  · rw [finish_regs_of_hardwired _ _ (by simpa using h), drawOther_regs]
  · rw [finish_regs_other _ _ hr, drawOther_regs]
  · simp
  · simp
  · simp
  · simp
  · cases p <;> simp [drawOther, drawsOf]

theorem finish_computesInto (s : State) (rd : Reg) (v : Word) : ComputesInto s (finish s rd v) rd v 0 :=
  finish_drawOther_computesInto s .zero rd v

theorem branch_onlyPcChanges (s : State) (b : Bool) (imm : Byte) : OnlyPcChanges s (branch b s imm) :=
  ⟨branch_regs s b imm, fun a => by simp, by simp [SameRest]⟩

theorem jump_onlyPcChanges (s : State) (imm : Byte) : OnlyPcChanges s (jump s imm) :=
  branch_onlyPcChanges s true imm

theorem advance_onlyPcChanges (s : State) : OnlyPcChanges s (advance s) :=
  ⟨rfl, fun _ => rfl, rfl, rfl, rfl⟩

theorem sameMemoryOutside_writeByte (s : State) (a : Word) (v : Byte) :
    SameMemoryOutside s (advance (writeByte s a v)) [a] := by
  intro b hb
  rw [advance_mem, read_writeByte, if_neg (hb a (by simp))]

theorem sameMemoryOutside_writeWord (s : State) (a v : Word) :
    SameMemoryOutside s (advance (writeWord s a v)) [a, a + 1] := by
  intro b hb
  rw [advance_mem, read_writeWord, if_neg (hb (a + 1) (by simp)), if_neg (hb a (by simp))]

/-! ### The tests of the branches -/

theorem isZero_iff (v : Word) : isZero v = true ↔ v = 0 := by simp [isZero]

/-- "Less than zero" is bit 15 (R113, R71). -/
theorem isMinus_iff (v : Word) : isMinus v = true ↔ v.toInt < 0 := by
  rw [BitVec.toInt_neg_iff, isMinus, BitVec.getLsbD, Nat.testBit_eq_decide_div_mod_eq]
  have := v.isLt
  simp
  omega

/-! ### The cases of an instruction -/

theorem next_inj {a b : State} (h : (.next a : Result) = .next b) : b = a := by
  cases h
  rfl

/-- What an instruction that answers a next state did: it computed into its destination, or stored, or did nothing, or
was a control transfer, taken or not. -/
theorem exec_next_cases (h : exec i s = .next t) :
    (∃ p rd v, destination i = some rd ∧ transferImmediate i = none ∧ ¬ TransferTaken i s ∧
      t = finish (drawOther p s) rd v) ∨
    (∃ rd rs, i = .sw rd rs ∧ dataWordFault s (effectiveAddress s rs) = none ∧
      t = advance (writeWord s (effectiveAddress s rs) (readReg s rd))) ∨
    (∃ rd rs, i = .sbu rd rs ∧ byteFault s (effectiveAddress s rs) = none ∧
      t = advance (writeByte s (effectiveAddress s rs) (lowByte (readReg s rd)))) ∨
    (i = .nop ∧ t = advance s) ∨
    (∃ b imm, transferImmediate i = some imm ∧ destination i = none ∧ (b = true ↔ TransferTaken i s) ∧
      t = branch b s imm) := by
  cases i
  case nop => exact .inr (.inr (.inr (.inl ⟨rfl, next_inj h⟩)))
  case sw rd rs =>
    simp only [exec, execSw] at h
    split at h
    · cases h
    · exact .inr (.inl ⟨rd, rs, rfl, ‹_›, next_inj h⟩)
  case sbu rd rs =>
    simp only [exec, execSbu] at h
    split at h
    · cases h
    · exact .inr (.inr (.inl ⟨rd, rs, rfl, ‹_›, next_inj h⟩))
  case lw rd rs =>
    simp only [exec, execLw] at h
    split at h
    · cases h
    · exact .inl ⟨.zero, rd, _, rfl, rfl, id, next_inj h⟩
  case lbu rd rs =>
    simp only [exec, execLbu] at h
    split at h
    · cases h
    · exact .inl ⟨_, rd, _, rfl, rfl, id, next_inj h⟩
  case lli rd imm => exact .inl ⟨_, rd, _, rfl, rfl, id, next_inj h⟩
  case lui rd imm => exact .inl ⟨_, rd, _, rfl, rfl, id, next_inj h⟩
  case beqz rd imm =>
    refine .inr (.inr (.inr (.inr ⟨_, imm, rfl, rfl, ?_, next_inj h⟩)))
    exact isZero_iff _
  case bnez rd imm =>
    refine .inr (.inr (.inr (.inr ⟨_, imm, rfl, rfl, ?_, next_inj h⟩)))
    simp [TransferTaken, isZero]
  case bmi rd imm =>
    refine .inr (.inr (.inr (.inr ⟨_, imm, rfl, rfl, ?_, next_inj h⟩)))
    exact isMinus_iff _
  case bpl rd imm =>
    refine .inr (.inr (.inr (.inr ⟨_, imm, rfl, rfl, ?_, next_inj h⟩)))
    have := isMinus_iff (readReg s rd)
    cases hm : isMinus (readReg s rd) <;> simp_all [TransferTaken]
  case j imm =>
    refine .inr (.inr (.inr (.inr ⟨true, imm, rfl, rfl, ?_, next_inj h⟩)))
    simp [TransferTaken]
  case mov rd rs => exact .inl ⟨.zero, rd, _, rfl, rfl, id, next_inj h⟩
  case not rd rs => exact .inl ⟨.zero, rd, _, rfl, rfl, id, next_inj h⟩
  case xor rd rs => exact .inl ⟨.zero, rd, _, rfl, rfl, id, next_inj h⟩
  case add rd rs => exact .inl ⟨.zero, rd, _, rfl, rfl, id, next_inj h⟩
  case sub rd rs => exact .inl ⟨.zero, rd, _, rfl, rfl, id, next_inj h⟩
  case sl8 rd rs => exact .inl ⟨.zero, rd, _, rfl, rfl, id, next_inj h⟩
  case sr8 rd rs => exact .inl ⟨.zero, rd, _, rfl, rfl, id, next_inj h⟩
  case sl rd rs => exact .inl ⟨.zero, rd, _, rfl, rfl, id, next_inj h⟩
  case sr rd rs => exact .inl ⟨.zero, rd, _, rfl, rfl, id, next_inj h⟩
  case and rd rs => exact .inl ⟨.zero, rd, _, rfl, rfl, id, next_inj h⟩
  case or rd rs => exact .inl ⟨.zero, rd, _, rfl, rfl, id, next_inj h⟩
  case xori rd imm => exact .inl ⟨.zero, rd, _, rfl, rfl, id, next_inj h⟩
  case addi rd imm => exact .inl ⟨.zero, rd, _, rfl, rfl, id, next_inj h⟩
  case andi rd imm => exact .inl ⟨.zero, rd, _, rfl, rfl, id, next_inj h⟩
  case ori rd imm => exact .inl ⟨.zero, rd, _, rfl, rfl, id, next_inj h⟩

/-! ### The cases of a step -/

/-- What a step that answers a next state did (R146): its status was none, and it executed the instruction fetched. -/
theorem step_next_cases (h : step s = .next t) : s.fault = none ∧ ∃ i, fetchInstr s = .ok i ∧ exec i s = .next t := by
  unfold step at h
  split at h
  · cases h
  · rename_i hf
    refine ⟨hf, ?_⟩
    split at h
    · cases h
    · exact ⟨_, ‹_›, h⟩

/-- A step of a running machine executes what it fetches (R146). -/
theorem step_of_fetch (hf : s.fault = none) (h : fetchInstr s = .ok i) : step s = exec i s := by
  simp [step, hf, h]

/-- A fetched instruction is the decoded word at an even, backed `pc` (R146). -/
theorem fetchInstr_ok_iff :
    fetchInstr s = .ok i ↔ s.pc.toNat % 2 = 0 ∧ backed s.cfg s.pc = true ∧ backed s.cfg (s.pc + 1) = true ∧
      decodeWord (fetchWord s) = some i := by
  rw [fetchInstr_eq]
  have hf := fetchFault_eq_none_iff s
  cases h : fetchFault s with
  | some f =>
    simp only [h, reduceCtorEq, false_iff] at hf
    simp only [reduceCtorEq, false_iff]
    exact fun hc => hf ⟨hc.1, hc.2.1, hc.2.2.1⟩
  | none =>
    have hc := hf.mp h
    cases hd : decodeWord (fetchWord s) with
    | none => simp
    | some k =>
      simp only [Except.ok.injEq, Option.some.injEq]
      exact ⟨fun e => ⟨hc.1, hc.2.1, hc.2.2, e⟩, fun e => e.2.2.2⟩

end Sys2Proof.Machine
end

