-- ==== Sys2Proof/Tests/Slice0.lean ====
section
/-! SUPPORT. Small tests of the model and witnesses of the statements' hypotheses. Every expected value is from the spec:
words from the patterns of 30_encoding.md R57, results from 95_test_vectors.md section 2 or the rule a comment names. -/

namespace Sys2Proof.Tests

open Sys2Proof Sys2Proof.Machine

/-! ## Helpers -/

/-- Registers set one after the other. -/
def withRegs (s : State) (regs : List (Reg × Word)) : State := regs.foldl (fun t p => t.setReg p.1 p.2) s

/-- A state with these parameters, `pc`, registers and memory bytes, and the word `w` at `pc`. -/
def probe (c : Config) (pc w : Word) (regs : List (Reg × Word)) (cells : List (Word × Byte)) : State :=
  placeWord (withRegs (writeCells { State.reset with cfg := c, pc := pc } cells) regs) 16 w.toNat

/-- `pc` and one register after a step. -/
def after (r : Reg) (s : State) : Option (Word × Word) :=
  match step s with
  | .next t => some (t.pc, readReg t r)
  | .fault _ => none
  | .refused _ => none

/-- `pc` and two neighbouring bytes of memory after a step. -/
def afterBytes (a : Word) (s : State) : Option (Word × Byte × Byte) :=
  match step s with
  | .next t => some (t.pc, readByte t a, readByte t (a + 1))
  | .fault _ => none
  | .refused _ => none

/-- The fault a step raises, with the state the machine is left in but for its fault status. -/
def faultAfter (s : State) : Option (Fault × State) :=
  match step s with
  | .next _ => none
  | .fault f => some (f, { tick s with fault := s.fault })
  | .refused _ => none

/-- The default parameters of R7. -/
def std : Config := defaultConfig

/-- MEM_MAP restricted to the addresses below `n`. -/
def below (n : Nat) : Config := { defaultConfig with memMap := [⟨0, n⟩] }

/-- BRANCH_BASE and BRANCH_SCALE. -/
def branching (b : BranchBase) (k : BranchScale) : Config := { defaultConfig with branchBase := b, branchScale := k }

/-! ## WellFormed: each check refuses an ill-formed term -/

theorem test_wellFormed_default : defaultConfig.wellFormed = true := by decide
theorem test_wellFormed_refuses_odd_resetPc : ({ defaultConfig with resetPc := 0x0001#16 } : Config).wellFormed = false := by
  decide
theorem test_wellFormed_refuses_region_past_the_end :
    ({ defaultConfig with memMap := [⟨0xFFFF, 2⟩] } : Config).wellFormed = false := by decide
theorem test_immediateFits_refuses :
    immediateFits 256 = false ∧ immediateFits (-129) = false ∧ immediateFits 255 = true ∧ immediateFits (-128) = true := by
  decide
theorem test_launch_wellFormed_refuses_unbacked_cell :
    (⟨below 0x8000, Vector.replicate 8 0, [(0x8000#16, 1#8)]⟩ : Launch).wellFormed = false := by decide

/-! ## Decode: every pattern of R57 with `ddd` = 101, `sss` = 011, `xxxxxxxx` = 10010110, written bit by bit -/

theorem test_decode_register_family :
    decodeWord 0b00000_101_011_00000#16 = some .nop ∧
    decodeWord 0b00000_101_011_00001#16 = some (.mov 5 3) ∧
    decodeWord 0b00000_101_011_00010#16 = some (.not 5 3) ∧
    decodeWord 0b00000_101_011_00011#16 = some (.xor 5 3) ∧
    decodeWord 0b00000_101_011_00100#16 = some (.add 5 3) ∧
    decodeWord 0b00000_101_011_00101#16 = some (.sub 5 3) ∧
    decodeWord 0b00000_101_011_00110#16 = some (.sl8 5 3) ∧
    decodeWord 0b00000_101_011_00111#16 = some (.sr8 5 3) ∧
    decodeWord 0b00000_101_011_01000#16 = some (.sl 5 3) ∧
    decodeWord 0b00000_101_011_01001#16 = some (.sr 5 3) ∧
    decodeWord 0b00000_101_011_01010#16 = some (.and 5 3) ∧
    decodeWord 0b00000_101_011_01011#16 = some (.or 5 3) := by decide
theorem test_decode_memory_family :
    decodeWord 0b00000_101_011_10000#16 = some (.sw 5 3) ∧
    decodeWord 0b00000_101_011_10001#16 = some (.lw 5 3) ∧
    decodeWord 0b00000_101_011_10010#16 = some (.sbu 5 3) ∧
    decodeWord 0b00000_101_011_10011#16 = some (.lbu 5 3) := by decide
theorem test_decode_immediate_family :
    decodeWord 0b00001_101_10010110#16 = some (.lli 5 0x96#8) ∧
    decodeWord 0b00011_101_10010110#16 = some (.xori 5 0x96#8) ∧
    decodeWord 0b00100_101_10010110#16 = some (.addi 5 0x96#8) ∧
    decodeWord 0b00110_101_10010110#16 = some (.lui 5 0x96#8) ∧
    decodeWord 0b01010_101_10010110#16 = some (.andi 5 0x96#8) ∧
    decodeWord 0b01011_101_10010110#16 = some (.ori 5 0x96#8) := by decide
theorem test_decode_transfer_family :
    decodeWord 0b10000_101_10010110#16 = some (.beqz 5 0x96#8) ∧
    decodeWord 0b10001_101_10010110#16 = some (.bnez 5 0x96#8) ∧
    decodeWord 0b10010_101_10010110#16 = some (.bmi 5 0x96#8) ∧
    decodeWord 0b10011_101_10010110#16 = some (.bpl 5 0x96#8) ∧
    decodeWord 0b11000_101_10010110#16 = some (.j 0x96#8) := by decide

/-- The encoder on the words worked out in 95_test_vectors.md section 1 and the canonical words of R55. -/
theorem test_encode :
    encode (.add 2 1) = 0x0224#16 ∧ encode (.addi 1 0xFF#8) = 0x21FF#16 ∧ encode (.bnez 1 0xFC#8) = 0x89FC#16 ∧
    encode .nop = 0x0000#16 ∧ encode (.j 0x06#8) = 0xC006#16 := by decide

/-- The bytes of `add r2, r1` in either order (R36), and bytes that are no instruction (R58, R5). -/
theorem test_decodeBytes :
    decodeBytes .big [0x02#8, 0x24#8, 0x77#8] = .ok (.add 2 1, [0x77#8]) ∧
    decodeBytes .little [0x24#8, 0x02#8] = .ok (.add 2 1, []) ∧
    decodeBytes .big [0x00#8, 0x0C#8] = .error (.illegal 0x000C#16) ∧ decodeBytes .big [0x00#8] = .error .truncated :=
  ⟨rfl, rfl, rfl, rfl⟩

theorem test_decodeTableWord :
    decodeTableWord 16 0x0224 = some (.add 2 1) ∧ decodeTableWord 16 0xC000 = some (.j 0) ∧
    decodeTableWord 16 0xFFFF = none := by decide

/-- The first step after reset runs the word placed there. -/
theorem test_withFetchWord_at_reset :
    after 1 (State.reset.withFetchWord 16 0x2105) = some (0x0002#16, 0x0005#16) ∧
    after 1 (State.reset.withFetchWord 16 0xC006) = some (0x0006#16, 0x0000#16) := by decide

/-! ## One step of each instruction: the vectors of 95_test_vectors.md section 2 -/

theorem test_nop_ignores_fields :
    after 7 (probe std 0x0100#16 0x07E0#16 [(7, 0x1234#16)] []) =
      some (0x0102#16, 0x1234#16) := by decide
theorem test_nop_wraps :
    after 1 (probe std 0xFFFE#16 0x0000#16 [] []) =
      some (0x0000#16, 0x0000#16) := by decide
theorem test_mov :
    after 1 (probe std 0x0100#16 0x0141#16 [(1, 0xAAAA#16), (2, 0x1234#16)] []) =
      some (0x0102#16, 0x1234#16) := by decide
theorem test_not :
    after 1 (probe std 0x0100#16 0x0142#16 [(1, 0x0000#16), (2, 0x00FF#16)] []) =
      some (0x0102#16, 0xFF00#16) := by decide
theorem test_not_same :
    after 1 (probe std 0x0100#16 0x0122#16 [(1, 0xFFFF#16)] []) =
      some (0x0102#16, 0x0000#16) := by decide
theorem test_xor :
    after 1 (probe std 0x0100#16 0x0143#16 [(1, 0xFF00#16), (2, 0x0FF0#16)] []) =
      some (0x0102#16, 0xF0F0#16) := by decide
theorem test_xor_same :
    after 1 (probe std 0x0100#16 0x0123#16 [(1, 0xABCD#16)] []) =
      some (0x0102#16, 0x0000#16) := by decide
theorem test_add_wraps :
    after 1 (probe std 0x0100#16 0x0144#16 [(1, 0xFFFF#16), (2, 0x0001#16)] []) =
      some (0x0102#16, 0x0000#16) := by decide
theorem test_add_r0_is_ordinary :
    after 7 (probe std 0x0100#16 0x0704#16 [(0, 0x0002#16), (7, 0x0001#16)] []) =
      some (0x0102#16, 0x0003#16) := by decide
theorem test_sub_order :
    after 1 (probe std 0x0100#16 0x0145#16 [(1, 0x0003#16), (2, 0x0010#16)] []) =
      some (0x0102#16, 0xFFF3#16) := by decide
theorem test_sub_overflow :
    after 1 (probe std 0x0100#16 0x0145#16 [(1, 0x8000#16), (2, 0x0001#16)] []) =
      some (0x0102#16, 0x7FFF#16) := by decide
theorem test_sl8 :
    after 1 (probe std 0x0100#16 0x0146#16 [(1, 0xFFFF#16), (2, 0x12AB#16)] []) =
      some (0x0102#16, 0xAB00#16) := by decide
theorem test_sr8_zero_fill :
    after 1 (probe std 0x0100#16 0x0147#16 [(1, 0x0000#16), (2, 0x80FF#16)] []) =
      some (0x0102#16, 0x0080#16) := by decide
theorem test_sl_loses_bit_15 :
    after 1 (probe std 0x0100#16 0x0148#16 [(1, 0x0000#16), (2, 0x8001#16)] []) =
      some (0x0102#16, 0x0002#16) := by decide
theorem test_sr_zero_fill :
    after 1 (probe std 0x0100#16 0x0149#16 [(1, 0x0000#16), (2, 0x8003#16)] []) =
      some (0x0102#16, 0x4001#16) := by decide
theorem test_and :
    after 1 (probe std 0x0100#16 0x014A#16 [(1, 0xFF0F#16), (2, 0x3CF0#16)] []) =
      some (0x0102#16, 0x3C00#16) := by decide
theorem test_or :
    after 1 (probe std 0x0100#16 0x014B#16 [(1, 0xF000#16), (2, 0x000F#16)] []) =
      some (0x0102#16, 0xF00F#16) := by decide
theorem test_lli_preserve :
    after 1 (probe std 0x0100#16 0x0934#16 [(1, 0xABCD#16)] []) =
      some (0x0102#16, 0xAB34#16) := by decide
theorem test_lli_zero :
    after 1 (probe { std with lliOther := .zero } 0x0100#16 0x0934#16 [(1, 0xABCD#16)] []) =
      some (0x0102#16, 0x0034#16) := by decide
theorem test_xori_zero :
    after 1 (probe std 0x0100#16 0x19FF#16 [(1, 0x1234#16)] []) =
      some (0x0102#16, 0x12CB#16) := by decide
theorem test_xori_sign :
    after 1 (probe { std with xoriExt := .sign } 0x0100#16 0x19FF#16 [(1, 0x1234#16)] []) =
      some (0x0102#16, 0xEDCB#16) := by decide
theorem test_addi_smallest :
    after 1 (probe std 0x0100#16 0x2180#16 [(1, 0x0000#16)] []) =
      some (0x0102#16, 0xFF80#16) := by decide
theorem test_addi_overflow :
    after 1 (probe std 0x0100#16 0x217F#16 [(1, 0x7FFF#16)] []) =
      some (0x0102#16, 0x807E#16) := by decide
theorem test_lui_preserve :
    after 1 (probe std 0x0100#16 0x3112#16 [(1, 0x00CD#16)] []) =
      some (0x0102#16, 0x12CD#16) := by decide
theorem test_lui_zero :
    after 1 (probe { std with luiOther := .zero } 0x0100#16 0x3112#16 [(1, 0x00CD#16)] []) =
      some (0x0102#16, 0x1200#16) := by decide
theorem test_andi_clears_the_high_byte :
    after 1 (probe std 0x0100#16 0x51FF#16 [(1, 0xABCD#16)] []) =
      some (0x0102#16, 0x00CD#16) := by decide
theorem test_ori_is_not_sign_extended :
    after 1 (probe std 0x0100#16 0x5980#16 [(1, 0x0000#16)] []) =
      some (0x0102#16, 0x0080#16) := by decide
theorem test_sw_last_word :
    afterBytes 0xFFFE#16 (probe std 0x0100#16 0x0150#16 [(1, 0x1234#16), (2, 0xFFFE#16)] []) =
      some (0x0102#16, 0x12#8, 0x34#8) := by decide
theorem test_sw_little :
    afterBytes 0x0200#16 (probe { std with byteOrder := .little } 0x0100#16 0x0150#16 [(1, 0xABCD#16), (2, 0x0200#16)] []) =
      some (0x0102#16, 0xCD#8, 0xAB#8) := by decide
theorem test_lw_same_register :
    after 2 (probe std 0x0100#16 0x0251#16 [(2, 0x0200#16)] [(0x0200#16, 0x12#8), (0x0201#16, 0x34#8)]) =
      some (0x0102#16, 0x1234#16) := by decide
theorem test_lw_little :
    after 1 (probe { std with byteOrder := .little } 0x0100#16 0x0151#16 [(1, 0xFFFF#16), (2, 0x0200#16)] [(0x0200#16, 0x12#8), (0x0201#16, 0x34#8)]) =
      some (0x0102#16, 0x3412#16) := by decide
theorem test_sbu_odd_address :
    afterBytes 0x0200#16 (probe std 0x0100#16 0x0152#16 [(1, 0xABCD#16), (2, 0x0201#16)] [(0x0200#16, 0x11#8), (0x0201#16, 0x22#8), (0x0202#16, 0x33#8)]) =
      some (0x0102#16, 0x11#8, 0xCD#8) := by decide
theorem test_sbu_low_byte_of_its_address :
    afterBytes 0x0234#16 (probe std 0x0100#16 0x0252#16 [(2, 0x0234#16)] []) =
      some (0x0102#16, 0x34#8, 0x00#8) := by decide
theorem test_lbu_preserve :
    after 2 (probe std 0x0100#16 0x0253#16 [(2, 0x0200#16)] [(0x0200#16, 0x11#8)]) =
      some (0x0102#16, 0x0211#16) := by decide
theorem test_lbu_zero :
    after 1 (probe { std with lbuOther := .zero } 0x0100#16 0x0153#16 [(1, 0xAB00#16), (2, 0x0201#16)] [(0x0201#16, 0x80#8)]) =
      some (0x0102#16, 0x0080#16) := by decide
theorem test_beqz_backward :
    after 1 (probe std 0x0100#16 0x81FC#16 [(1, 0x0000#16)] []) =
      some (0x00FC#16, 0x0000#16) := by decide
theorem test_beqz_not_taken :
    after 1 (probe std 0x0100#16 0x8108#16 [(1, 0x0001#16)] []) =
      some (0x0102#16, 0x0001#16) := by decide
theorem test_bnez_taken :
    after 1 (probe std 0x0100#16 0x8908#16 [(1, 0x8000#16)] []) =
      some (0x0108#16, 0x8000#16) := by decide
theorem test_bnez_not_taken :
    after 1 (probe std 0x0100#16 0x8908#16 [(1, 0x0000#16)] []) =
      some (0x0102#16, 0x0000#16) := by decide
theorem test_bmi_taken :
    after 1 (probe std 0x0100#16 0x9108#16 [(1, 0x8000#16)] []) =
      some (0x0108#16, 0x8000#16) := by decide
theorem test_bmi_zero_is_not_minus :
    after 1 (probe std 0x0100#16 0x9108#16 [(1, 0x0000#16)] []) =
      some (0x0102#16, 0x0000#16) := by decide
theorem test_bpl_zero_is_plus :
    after 1 (probe std 0x0100#16 0x9908#16 [(1, 0x0000#16)] []) =
      some (0x0108#16, 0x0000#16) := by decide
theorem test_bpl_not_taken :
    after 1 (probe std 0x0100#16 0x9908#16 [(1, 0x8000#16)] []) =
      some (0x0102#16, 0x8000#16) := by decide
theorem test_j_wraps :
    after 1 (probe std 0x0002#16 0xC0FC#16 [] []) =
      some (0xFFFE#16, 0x0000#16) := by decide
theorem test_j_base_and_scale :
    after 1 (probe (branching .two .two) 0x0100#16 0xC006#16 [] []) =
      some (0x010E#16, 0x0000#16) := by decide

/-! ## The readings left open, and the faults -/

/-- `pc` and the free bytes drawn after a step. -/
def afterDraws (s : State) : Option (Word × Nat) :=
  match step s with
  | .next t => some (t.pc, t.freeCount)
  | .fault _ => none
  | .refused _ => none

/-- At `any` each of `lli`, `lui` and `lbu` completes and the counter of free bytes advances, so that the next byte is
chosen afresh (R91, R94, R104). -/
theorem test_any_draws_one_byte :
    afterDraws (probe { std with lliOther := .any } 0x0100#16 0x0934#16 [] []) = some (0x0102#16, 1) ∧
    afterDraws (probe { std with luiOther := .any } 0x0100#16 0x3112#16 [] []) = some (0x0102#16, 1) ∧
    afterDraws (probe { std with lbuOther := .any } 0x0100#16 0x0153#16 [] []) = some (0x0102#16, 1) := by decide

/-- R12 at `REG0_ZERO = true`: `addi r0, 5` leaves register 0 reading as zero. -/
theorem test_hardwired_register :
    after 0 (probe { std with reg0Zero := true } 0x0100#16 0x2005#16 [(0, 0x1234#16)] []) =
      some (0x0102#16, 0x0000#16) := by decide

/-- 95_test_vectors.md section 2.5, its first and last row. -/
theorem test_illegal_words :
    faultAfter (probe std 0x0100#16 0x000C#16 [(1, 0x1234#16)] []) =
      some (.illegalInstruction 0x000C#16, probe std 0x0100#16 0x000C#16 [(1, 0x1234#16)] []) ∧
    faultAfter (probe std 0x0100#16 0xFFFF#16 [(1, 0x1234#16)] []) =
      some (.illegalInstruction 0xFFFF#16, probe std 0x0100#16 0xFFFF#16 [(1, 0x1234#16)] []) := by decide

/-- `sw` and `lw` at an odd address (95_test_vectors.md section 2.3). -/
theorem test_misaligned_data :
    (faultAfter (probe std 0x0100#16 0x0150#16 [(2, 0x0201#16)] [])).map Prod.fst = some (.misalignedAccess 0x0201#16) ∧
    (faultAfter (probe std 0x0100#16 0x0151#16 [(2, 0x0201#16)] [])).map Prod.fst = some (.misalignedAccess 0x0201#16) := by
  decide

/-- The fault order of R125, as 95_test_vectors.md section 2.5 spells it out. -/
theorem test_fault_order :
    (faultAfter { probe std 0x0100#16 0x000C#16 [] [] with pc := 0x0101#16 }).map Prod.fst =
      some (.fetchMisaligned 0x0101#16) ∧
    (faultAfter (probe std 0x0100#16 0x0231#16 [(1, 0x0001#16)] [])).map Prod.fst =
      some (.misalignedAccess 0x0001#16) ∧
    (faultAfter (probe (below 0x8000) 0x0100#16 0x0231#16 [(1, 0x8001#16)] [])).map Prod.fst =
      some (.misalignedAccess 0x8001#16) ∧
    (faultAfter (probe (below 0x8000) 0x0100#16 0x0231#16 [(1, 0x8000#16)] [])).map Prod.fst =
      some (.unbackedAccess 0x8000#16) := by decide

/-- `beqz r1, 3` completes; the next step raises the fault (95_test_vectors.md section 2.4, last row). -/
theorem test_odd_target_faults_later :
    (faultAfter (tick (probe std 0x0100#16 0x8103#16 [] []))).map Prod.fst = some (.fetchMisaligned 0x0103#16) := by
  decide

/-- The notation of R62 and R63, with the worked words of 95_test_vectors.md section 1. -/
theorem test_assembly :
    assembly (.add 2 1) = "add r2, r1" ∧ assembly (.sw 1 2) = "sw r1, (r2)" ∧ assembly .nop = "nop" ∧
    assembly (.addi 1 0x05#8) = "addi r1, 5" ∧ assembly (.j 0x06#8) = "j 6" := ⟨rfl, rfl, rfl, rfl, rfl⟩

/-- R116 at the defaults: from 0x0100 to 0x00FC the immediate is -4; a distance of 128 is out of reach. -/
theorem test_branchImmediate :
    branchImmediate std 0x0100#16 0x00FC#16 = some 0xFC#8 ∧ branchImmediate std 0x0100#16 0x0180#16 = none := by decide

/-! ## Witnesses: states and operands that meet the hypotheses of the statements -/

/-- `add r2, r1` at 0x0100. -/
def running : State := probe std 0x0100#16 0x0224#16 [(1, 0x0003#16), (2, 0x0004#16)] []

/-- `sw r1, (r2)` at 0x0100, the address 0x0200. -/
def storing : State := probe std 0x0100#16 0x0150#16 [(1, 0x0224#16), (2, 0x0200#16)] []

/-- `j 0` at 0x0100. -/
def halted : State := probe std 0x0100#16 0xC000#16 [] []

theorem witness_illegal_words :
    (decodeWord 0x000B#16).isSome ∧ decodeWord 0x000C#16 = none ∧ decodeWord 0x000F#16 = none ∧
    (decodeWord 0x0010#16).isSome ∧ (decodeWord 0x0013#16).isSome ∧ decodeWord 0x0014#16 = none ∧
    decodeWord 0x001F#16 = none ∧ decodeWord 0x1000#16 = none ∧ decodeWord 0xFFFF#16 = none := by decide

theorem witness_illegal_fetch :
    let s := probe std 0xFFFE#16 0xFFFF#16 [] []
    s.fault = none ∧ s.pc.toNat % 2 = 0 ∧ backed s.cfg s.pc = true ∧ backed s.cfg (s.pc + 1) = true ∧
    decodeWord (readWord s s.pc) = none := by decide

theorem witness_encode_restores :
    decodeWord 0x07E0#16 = some .nop ∧ decodeWord 0xC7FF#16 = some (.j 0xFF#8) ∧
    decodeWord 0x9FFF#16 = some (.bpl 7 0xFF#8) := by decide

/-- The four cases of `sw` and `lw`: odd, first byte unbacked, second byte unbacked, both backed. -/
theorem witness_word_access :
    (effectiveAddress (withRegs State.reset [(2, 0xFFFF#16)]) 2).toNat % 2 = 1 ∧
    (let s := probe (below 0x0200) 0x0100#16 0x0150#16 [(2, 0x0200#16)] [];
      (effectiveAddress s 2).toNat % 2 = 0 ∧ backed s.cfg (effectiveAddress s 2) = false) ∧
    (let s := probe (below 0x0201) 0x0100#16 0x0150#16 [(2, 0x0200#16)] [];
      (effectiveAddress s 2).toNat % 2 = 0 ∧ backed s.cfg (effectiveAddress s 2) = true ∧
      backed s.cfg (effectiveAddress s 2 + 1) = false) ∧
    (let s := withRegs State.reset [(2, 0xFFFE#16)];
      (effectiveAddress s 2).toNat % 2 = 0 ∧ backed s.cfg (effectiveAddress s 2) = true ∧
      backed s.cfg (effectiveAddress s 2 + 1) = true) := by decide

/-- The two cases of `sbu` and `lbu`. -/
theorem witness_byte_access :
    backed (below 0x0200) (effectiveAddress (withRegs State.reset [(2, 0x0200#16)]) 2) = false ∧
    backed std (effectiveAddress (withRegs State.reset [(2, 0xFFFF#16)]) 2) = true := by decide

theorem witness_mixed_widths : (0xFFFE#16 : Word).toNat % 2 = 0 := by decide

theorem witness_store_then_load :
    (readReg storing 2).toNat % 2 = 0 ∧ backed storing.cfg (readReg storing 2) = true ∧
    backed storing.cfg (readReg storing 2 + 1) = true := by decide

/-- A store of the word of `add r2, r1`, which the next fetch can execute. -/
theorem witness_fetch_sees_store :
    (∃ t, exec (.sw 1 2) storing = .next t) ∧ decodeWord (readReg storing 1) = some (.add 2 1) ∧
    storing.fault = none := ⟨⟨_, rfl⟩, by decide, by decide⟩

/-- Both outcomes of the four tests, at the values where they meet. -/
theorem witness_branch_conditions :
    readReg State.reset 1 = 0 ∧ readReg (withRegs State.reset [(1, 0x8000#16)]) 1 ≠ 0 ∧
    (readReg (withRegs State.reset [(1, 0x8000#16)]) 1).toInt < 0 ∧
    (readReg (withRegs State.reset [(1, 0xFFFF#16)]) 1).toInt < 0 ∧ 0 ≤ (readReg State.reset 1).toInt ∧
    0 ≤ (readReg (withRegs State.reset [(1, 0x7FFF#16)]) 1).toInt := by decide

theorem witness_transfer :
    transferImmediate (.j 0x7F#8) = some 0x7F#8 ∧ TransferTaken (.j 0x7F#8) halted ∧ halted.fault = none ∧
    (branchTarget halted 0x7F#8).toNat % 2 = 1 := ⟨rfl, trivial, rfl, by decide⟩

/-- A taken conditional branch. -/
theorem witness_transfer_conditional :
    transferImmediate (.beqz 1 0x80#8) = some 0x80#8 ∧ TransferTaken (.beqz 1 0x80#8) halted := ⟨rfl, rfl⟩

/-- Quotients -128, 127 and 128 at the defaults, and a distance that no quotient gives at BRANCH_SCALE = 2. -/
theorem witness_branch_immediate :
    ((0x0080#16 : Word).toNat : Int) - (halted.pc.toNat : Int) - branchBaseInt halted.cfg =
      branchScaleInt halted.cfg * (-128) ∧
    ((0x017F#16 : Word).toNat : Int) - (halted.pc.toNat : Int) - branchBaseInt halted.cfg =
      branchScaleInt halted.cfg * 127 ∧
    ((0x0180#16 : Word).toNat : Int) - (halted.pc.toNat : Int) - branchBaseInt halted.cfg =
      branchScaleInt halted.cfg * 128 := by decide

theorem witness_branch_immediate_none (q : Int) :
    ((0x0103#16 : Word).toNat : Int) - ((0x0100#16 : Word).toNat : Int) - branchBaseInt (branching .zero .two) ≠
      branchScaleInt (branching .zero .two) * q := by
  show (3 : Int) ≠ 2 * q
  omega

/-- What the fetch of a run asks, at the last word of the address space too. -/
theorem witness_step_runs :
    running.fault = none ∧ running.pc.toNat % 2 = 0 ∧ backed running.cfg running.pc = true ∧
    backed running.cfg (running.pc + 1) = true ∧
    decodeBytes running.cfg.byteOrder [readByte running running.pc, readByte running (running.pc + 1)] =
      .ok (.add 2 1, []) := ⟨rfl, rfl, rfl, rfl, rfl⟩

theorem witness_step_runs_last_word :
    let s := probe std 0xFFFE#16 0x0224#16 [] []
    s.fault = none ∧ s.pc.toNat % 2 = 0 ∧ backed s.cfg s.pc = true ∧ backed s.cfg (s.pc + 1) = true ∧
    decodeBytes s.cfg.byteOrder [readByte s s.pc, readByte s (s.pc + 1)] = .ok (.add 2 1, []) :=
  ⟨rfl, rfl, rfl, rfl, rfl⟩

/-- Each of the five checks of R125 fails somewhere, and all pass somewhere. -/
theorem witness_expected_fault :
    running.fault = none ∧ expectedFault running = none ∧
    expectedFault (running.setPc 0x0101#16) = some (.fetchMisaligned 0x0101#16) ∧
    expectedFault (probe (below 0x0101) 0x0100#16 0x0000#16 [] []) = some (.unbackedAccess 0x0101#16) ∧
    expectedFault (probe std 0x0100#16 0x1000#16 [] []) = some (.illegalInstruction 0x1000#16) ∧
    expectedFault (probe std 0x0100#16 0x0231#16 [(1, 0x8001#16)] []) = some (.misalignedAccess 0x8001#16) ∧
    expectedFault (probe (below 0x8000) 0x0100#16 0x0233#16 [(1, 0x8000#16)] []) =
      some (.unbackedAccess 0x8000#16) := by decide

theorem witness_step_faults :
    step (running.setPc 0x0101#16) = .fault (.fetchMisaligned 0x0101#16) ∧ (running.setPc 0x0101#16).fault = none :=
  ⟨rfl, rfl⟩

theorem witness_placed_word :
    (0x0224 : Nat) < 65536 ∧ State.reset.fault = none ∧ State.reset.pc.toNat % 2 = 0 ∧
    backed State.reset.cfg State.reset.pc = true ∧ backed State.reset.cfg (State.reset.pc + 1) = true ∧
    decodeTableWord 16 0x0224 = some (.add 2 1) ∧ decodeTableWord 16 0xFFFF = none := by decide

theorem witness_destination_changes : ∃ t, step running = .next t ∧ t.regs[(2 : Reg)] ≠ running.regs[(2 : Reg)] :=
  ⟨_, rfl, by decide⟩

/-- A register not read, at an instruction that completes and at one that faults. -/
theorem witness_unread_register :
    (3 : Reg) ∉ sources running.cfg (.add 2 1) ∧ (∃ t, exec (.add 2 1) running = .next t) ∧
    (3 : Reg) ∉ sources running.cfg (.lw 2 1) ∧ exec (.lw 2 1) running = .fault (.misalignedAccess 0x0003#16) :=
  ⟨by decide, ⟨_, rfl⟩, by decide, rfl⟩

/-- The destination itself is not read by `mov`. -/
theorem witness_unread_destination : (2 : Reg) ∉ sources running.cfg (.mov 2 1) := by decide

theorem witness_store_changes_memory :
    ∃ t, step storing = .next t ∧ Memory.read t.mem 0x0201 ≠ Memory.read storing.mem 0x0201 := ⟨_, rfl, by decide⟩

theorem witness_pc_advances : (∃ t, exec (.add 2 1) running = .next t) ∧ ¬ TransferTaken (.add 2 1) running :=
  ⟨⟨_, rfl⟩, fun h => h⟩

theorem witness_pc_advances_branch :
    (∃ t, exec (.beqz 1 8) running = .next t) ∧ ¬ TransferTaken (.beqz 1 8) running :=
  ⟨⟨_, rfl⟩, (by decide : ¬ readReg running 1 = 0)⟩

theorem witness_pc_transfers : (∃ t, exec (.j 8) running = .next t) ∧ TransferTaken (.j 8) running :=
  ⟨⟨_, rfl⟩, trivial⟩

theorem witness_fixed_point : IsFixedPoint halted := ⟨rfl, rfl⟩

/-- Both sides of R144's equivalence hold there. -/
theorem witness_self_transfer :
    halted.fault = none ∧ fetchInstr halted = .ok (.j 0) ∧ transferImmediate (.j 0) = some 0 ∧
    TransferTaken (.j 0) halted ∧ branchTarget halted 0 = halted.pc := ⟨rfl, rfl, rfl, trivial, rfl⟩

/-- A run that ends after one step: `j 2`, then `j 0`. -/
theorem witness_end_of_run :
    EndsAt (probe std 0x0100#16 0xC002#16 [] [(0x0102#16, 0xC0#8)])
      ((probe std 0x0100#16 0xC002#16 [] [(0x0102#16, 0xC0#8)]).setPc 0x0102#16) := ⟨1, rfl, rfl, rfl⟩

theorem witness_hardwired :
    let s := probe { std with reg0Zero := true } 0x0100#16 0x0024#16 [(0, 0x1234#16), (1, 0x0001#16)] []
    s.cfg.reg0Zero = true ∧ (∃ t, exec (.add 0 1) s = .next t) := ⟨rfl, ⟨_, rfl⟩⟩

theorem witness_not_hardwired : running.cfg.reg0Zero = false ∧ (7 : Reg) ≠ 0 := by decide

/-- The readings the idioms of R142 are given for. -/
theorem witness_idioms :
    running.cfg.luiOther = .preserve ∧ running.cfg.lliOther = .preserve ∧
    ({ std with luiOther := .zero } : Config).luiOther = .zero ∧ backed running.cfg (readReg running 1) = true ∧
    running.cfg.branchBase = .zero ∧ (branching .two .one).branchBase = .two ∧ (branching .two .one).branchScale = .one ∧
    (branching .two .two).branchBase = .two ∧ (branching .two .two).branchScale = .two := by decide

/-- Two memories in canonical form, at both ends of the address space, written in different orders. -/
theorem witness_memory_ext :
    Memory.wf (Memory.write (Memory.write [] 0xFFFF 0x22#8) 0 0x11#8) ∧
    Memory.wf (Memory.write (Memory.write [] 0 0x11#8) 0xFFFF 0x22#8) ∧
    ∀ a, Memory.read (Memory.write (Memory.write [] 0xFFFF 0x22#8) 0 0x11#8) a =
      Memory.read (Memory.write (Memory.write [] 0 0x11#8) 0xFFFF 0x22#8) a :=
  ⟨by decide, by decide, fun _ => rfl⟩

theorem witness_canonical : MemoryCanonical State.reset ∧ (∃ t, step State.reset = .next t) :=
  ⟨show Memory.wf [] by decide, ⟨_, rfl⟩⟩

theorem witness_canonical_store : MemoryCanonical storing ∧ (∃ t, step storing = .next t) :=
  ⟨show Memory.wf storing.mem by decide, ⟨_, rfl⟩⟩

theorem witness_keeps_parameters : ∃ t, step running = .next t := ⟨_, rfl⟩

theorem witness_even_pc :
    let s := probe (branching .two .two) 0xFFFE#16 0xC0FF#16 [] []
    (s.cfg.branchScale = .two ∧ s.pc.toNat % 2 = 0) ∧ ∃ t, step s = .next t := ⟨⟨rfl, rfl⟩, ⟨_, rfl⟩⟩

theorem witness_image_cells :
    let l : Launch := ⟨std, Vector.replicate 8 0x0007#16, [(0x0000#16, 0x11#8), (0xFFFF#16, 0x22#8)]⟩
    (l.cells.map Prod.fst).Nodup ∧ (0xFFFF#16, 0x22#8) ∈ l.cells := by decide

theorem witness_image_words : (1 : Nat) < [0x0224#16, 0xC000#16].length ∧ [0x0224#16, 0xC000#16].length ≤ 32768 := by
  decide

theorem witness_immediates :
    ((-128 : Int) ≤ -128 ∧ (-128 : Int) ≤ 255) ∧ ((-128 : Int) ≤ 255 ∧ (255 : Int) ≤ 255) ∧
    ¬ ((-128 : Int) ≤ -129 ∧ (-129 : Int) ≤ 255) ∧ ¬ ((-128 : Int) ≤ 256 ∧ (256 : Int) ≤ 255) := by decide

end Sys2Proof.Tests
end

namespace Sys2Proof.Machine

/-! ### The parameters and the fault status along a step -/

/-- Neither a written result, a store, `nop` nor a control transfer writes a parameter (R7) or the fault status (R21). -/
theorem exec_keeps_parameters_and_status {s t : State} {i : Instr} (h : exec i s = .next t) :
    t.cfg = s.cfg ∧ t.fault = s.fault := by
  obtain ⟨p, rd, v, -, -, -, rfl⟩ | ⟨rd, rs, -, -, rfl⟩ | ⟨rd, rs, -, -, rfl⟩ | ⟨-, rfl⟩ | ⟨b, imm, -, -, -, rfl⟩ :=
    exec_next_cases h
  · exact ⟨by simp, by simp⟩
  · exact ⟨rfl, rfl⟩
  · exact ⟨rfl, rfl⟩
  · exact ⟨advance_cfg s, advance_fault s⟩
  · exact ⟨branch_cfg s b imm, branch_fault s b imm⟩

/-- Settles O44: the step executed an instruction from fault status none (`step_next_cases`), and an instruction that
completes keeps status and parameters. -/
theorem stepKeepsParametersAndStatus : Obligations.StepKeepsParametersAndStatus := by
  intro s t h
  obtain ⟨hnone, i, -, hexec⟩ := step_next_cases h
  obtain ⟨hcfg, hfault⟩ := exec_keeps_parameters_and_status hexec
  exact ⟨hnone, hfault.trans hnone, hcfg⟩

end Sys2Proof.Machine

namespace Sys2Proof.Machine

/-! ### The canonical form of the memory along a step -/

/-- Only the two stores write memory, and a store at a 16-bit address keeps the canonical form (R19, R39). -/
theorem exec_keeps_memory_canonical {s t : State} {i : Instr} (hs : MemoryCanonical s) (h : exec i s = .next t) :
    MemoryCanonical t := by
  unfold MemoryCanonical at *
  obtain ⟨p, rd, v, -, -, -, rfl⟩ | ⟨rd, rs, -, -, rfl⟩ | ⟨rd, rs, -, -, rfl⟩ | ⟨-, rfl⟩ | ⟨b, imm, -, -, -, rfl⟩ :=
    exec_next_cases h
  · rwa [finish_mem, drawOther_mem]
  · exact writeWord_mem_wf s hs
  · exact writeByte_mem_wf s hs
  · exact hs
  · rwa [branch_mem]

/-- Settles O42: the invariant along the instruction the step executed (`step_next_cases`). -/
theorem stepKeepsMemoryCanonical : Obligations.StepKeepsMemoryCanonical := by
  intro s t hs h
  obtain ⟨-, i, -, hexec⟩ := step_next_cases h
  exact exec_keeps_memory_canonical hs hexec

/-! ### Memories as the bytes they hold -/

/-- The first address of a memory in canonical form is below every later one (R19). -/
theorem Memory.wf_cons_iff {c : Host.Cell} {m : Memory} :
    Memory.wf (c :: m) ↔
      (∀ d ∈ m, c.1 < d.1) ∧ c.1 < 65536 ∧ c.2 ≠ Memory.unlisted ∧ Memory.wf m := by
  simp only [Memory.wf, List.pairwise_cons, List.forall_mem_cons]
  tauto

/-- A memory in canonical form lists exactly the bytes that do not read as an unlisted one (R19). -/
theorem Memory.mem_iff_read {m : Memory} (h : Memory.wf m) (c : Host.Cell) :
    c ∈ m ↔ Memory.read m c.1 = c.2 ∧ c.2 ≠ Memory.unlisted := by
  induction m with
  | nil => simpa using fun e => e.symm
  | cons d m ih =>
    obtain ⟨hbelow, -, hlisted, hm⟩ := Memory.wf_cons_iff.mp h
    rw [List.mem_cons, ih hm, Memory.read_cons]
    by_cases hd : d.1 = c.1
    · have habsent : Memory.read m c.1 = Memory.unlisted :=
        Memory.read_eq_unlisted_of_absent fun e he => hd ▸ (hbelow e he).ne'
      have hcell : c = d ↔ d.2 = c.2 := by rw [Prod.ext_iff, and_iff_right hd.symm, eq_comm]
      rw [if_pos hd, habsent, hcell]
      constructor
      · rintro (hsame | ⟨hun, hlist⟩)
        · exact ⟨hsame, hsame ▸ hlisted⟩
        · exact absurd hun.symm hlist
      · exact fun ⟨hsame, _⟩ => .inl hsame
    · have hne : c ≠ d := fun e => hd (congrArg Prod.fst e.symm)
      rw [if_neg hd, or_iff_right hne]

/-- Settles O41: both memories list the same cells (`Memory.mem_iff_read`), and by rising address there is one order to
list them in. -/
theorem memoryIsItsBytes : Obligations.MemoryIsItsBytes := by
  intro m k hm hk hread
  refine List.Pairwise.eq_of_mem_iff (r := Prod.fst ⁻¹'o (· < ·)) hm.1 hk.1 fun c => ?_
  rw [Memory.mem_iff_read hm, Memory.mem_iff_read hk, hread]

/-! ### The destination and register 0 -/

/-- An instruction that completes leaves every register but its destination (R13), and that one too where it is
hardwired (R12). -/
theorem exec_regs_of_destination_hardwired {s t : State} {i : Instr} {r : Reg} (h : exec i s = .next t)
    (hr : destination i = some r → hardwired s.cfg r = true) : t.regs[r] = s.regs[r] := by
  obtain ⟨p, rd, v, hd, -, -, rfl⟩ | ⟨rd, rs, -, -, rfl⟩ | ⟨rd, rs, -, -, rfl⟩ | ⟨-, rfl⟩ | ⟨b, imm, -, -, -, rfl⟩ :=
    exec_next_cases h
  · by_cases hrd : r = rd
    · subst hrd
      rw [finish_regs_of_hardwired _ v (by simpa using hr hd), drawOther_regs]
    · rw [finish_regs_other _ v hrd, drawOther_regs]
  · rfl
  · rfl
  · rfl
  · rw [branch_regs]

/-- Settles O32: the instruction is the one the step fetched (`step_next_cases`), and a register that changed is its
destination. -/
theorem onlyTheDestinationChanges : Obligations.OnlyTheDestinationChanges := by
  intro s t r h hchanged
  obtain ⟨-, i, hfetch, hexec⟩ := step_next_cases h
  by_contra hnone
  have hother : destination i ≠ some r := fun hd => hnone ⟨i, hfetch, hd⟩
  exact hchanged (exec_regs_of_destination_hardwired hexec fun hd => absurd hd hother)

theorem readReg_of_hardwired {s : State} {r : Reg} (h : hardwired s.cfg r = true) : readReg s r = 0 := by
  rw [readReg, if_pos h]

/-- Settles O38: register 0 is the hardwired one, and no instruction changes the parameter that says so. -/
theorem hardwiredRegisterZero : Obligations.HardwiredRegisterZero := by
  refine fun s => ⟨fun hzero => ?_, fun r v hr => ?_⟩
  · have hwired : hardwired s.cfg 0 = true := by simp [hardwired, hzero]
    refine ⟨readReg_of_hardwired hwired, fun v => writeReg_of_hardwired s v hwired, fun i t h => ?_⟩
    obtain ⟨hcfg, -⟩ := exec_keeps_parameters_and_status h
    exact ⟨readReg_of_hardwired (hcfg ▸ hwired), exec_regs_of_destination_hardwired h fun _ => hwired⟩
  · have hfree : hardwired s.cfg r = false := by
      rcases hr with hoff | hne
      · simp [hardwired, hoff]
      · simp [hardwired, hne]
    simp [readReg_writeReg, hfree]

/-! ### The program counter -/

/-- Settles O35: every instruction ends by advancing `pc`, but for the transfers, which do so only when not taken. -/
theorem pcAdvancesUnlessTransferred : Obligations.PcAdvancesUnlessTransferred := by
  intro i s t h
  obtain ⟨p, rd, v, -, -, hnot, rfl⟩ | ⟨rd, rs, rfl, -, rfl⟩ | ⟨rd, rs, rfl, -, rfl⟩ | ⟨rfl, rfl⟩ |
    ⟨b, imm, himm, -, htaken, rfl⟩ := exec_next_cases h
  · exact ⟨fun _ => advances_of_pc (by simp), fun hyes => absurd hyes hnot⟩
  · exact ⟨fun _ => advances_of_pc rfl, False.elim⟩
  · exact ⟨fun _ => advances_of_pc rfl, False.elim⟩
  · exact ⟨fun _ => advances_of_pc rfl, False.elim⟩
  · refine ⟨fun hnot => advances_of_pc ?_, fun hyes => ⟨imm, himm, ?_⟩⟩
    · rw [branch_pc, if_neg (mt htaken.mp hnot)]
    · rw [branch_pc, if_pos (htaken.mpr hyes)]

/-! ### The state a launch begins with -/

@[simp] theorem writeCells_pc (s : State) (cells : List (Word × Byte)) : (writeCells s cells).pc = s.pc := by
  induction cells generalizing s with
  | nil => rfl
  | cons c rest ih => exact ih (writeByte s c.1 c.2)

@[simp] theorem writeCells_fault (s : State) (cells : List (Word × Byte)) :
    (writeCells s cells).fault = s.fault := by
  induction cells generalizing s with
  | nil => rfl
  | cons c rest ih => exact ih (writeByte s c.1 c.2)

/-- Settles O46: laying the cells into memory leaves what `launch` sets from the reset state (`writeCells_pc`,
`writeCells_fault`). -/
theorem resetEstablishesPcAndStatus : Obligations.ResetEstablishesPcAndStatus :=
  ⟨rfl, rfl, rfl, fun l => ⟨writeCells_pc _ l.cells, writeCells_fault _ l.cells⟩⟩

/-! ### Instructions on states that differ in some registers -/

/-- The two states differ at most in the registers outside `P`. -/
structure AgreeOn (P : Reg → Prop) (s u : State) : Prop where
  cfg : u.cfg = s.cfg
  pc : u.pc = s.pc
  mem : u.mem = s.mem
  fault : u.fault = s.fault
  freeCount : u.freeCount = s.freeCount
  read : ∀ q, P q → readReg u q = readReg s q

/-- The two results are next states that agree on `P`, or the same fault. -/
inductive SameOutcome (P : Reg → Prop) : Result → Result → Prop where
  | next {t u : State} (h : AgreeOn P t u) : SameOutcome P (.next t) (.next u)
  | fault (f : Fault) : SameOutcome P (.fault f) (.fault f)

/-- The registers known after `i` where those in `P` are known before: `i` has written its destination. -/
def KnownAfter (P : Reg → Prop) (i : Instr) (q : Reg) : Prop := P q ∨ destination i = some q

theorem SameOutcome.eq_fault {P : Reg → Prop} {f : Fault} {o : Result} (h : SameOutcome P (.fault f) o) :
    o = .fault f := by
  cases h
  rfl

theorem SameOutcome.exists_next {P : Reg → Prop} {t : State} {o : Result} (h : SameOutcome P (.next t) o) :
    ∃ u, o = .next u ∧ AgreeOn P t u := by
  cases h with
  | next h => exact ⟨_, rfl, h⟩

section Agreement

variable {P : Reg → Prop} {s u : State} {i : Instr}

theorem agreeOn_setReg (s : State) (r : Reg) (v : Word) : AgreeOn (· ≠ r) s (s.setReg r v) where
  cfg := rfl
  pc := rfl
  mem := rfl
  fault := rfl
  freeCount := rfl
  read q hq := by
    have hne : r.val ≠ q.val := fun e => hq (Fin.ext e.symm)
    simp [readReg, hne]

theorem AgreeOn.advance (h : AgreeOn P s u) : AgreeOn P (advance s) (advance u) where
  cfg := h.cfg
  pc := by rw [advance_pc, advance_pc, h.pc]
  mem := h.mem
  fault := h.fault
  freeCount := h.freeCount
  read := h.read

theorem AgreeOn.branch (h : AgreeOn P s u) (b : Bool) (imm : Byte) : AgreeOn P (branch b s imm) (branch b u imm) where
  cfg := by simp [h.cfg]
  pc := by simp [branchTarget, h.cfg, h.pc]
  mem := by simp [h.mem]
  fault := by simp [h.fault]
  freeCount := by simp [h.freeCount]
  read q hq := by
    rw [readReg_congr (branch_cfg u b imm) (branch_regs u b imm),
      readReg_congr (branch_cfg s b imm) (branch_regs s b imm)]
    exact h.read q hq

theorem AgreeOn.drawOther (h : AgreeOn P s u) (p : OtherByte) : AgreeOn P (drawOther p s) (drawOther p u) := by
  cases p with
  | preserve => exact h
  | zero => exact h
  | any => exact { h with freeCount := congrArg (· + 1) h.freeCount }

theorem AgreeOn.writeByte (h : AgreeOn P s u) (a : Word) (v : Byte) :
    AgreeOn P (writeByte s a v) (writeByte u a v) :=
  { h with mem := congrArg (Memory.write · a.toNat v) h.mem }

theorem AgreeOn.writeWord (h : AgreeOn P s u) (a v : Word) : AgreeOn P (writeWord s a v) (writeWord u a v) := by
  unfold Machine.writeWord
  rw [h.cfg]
  exact (h.writeByte _ _).writeByte _ _

/-- Writing one result to both makes the destination known. -/
theorem AgreeOn.finish (h : AgreeOn P s u) {rd : Reg} (hd : destination i = some rd) (v : Word) :
    AgreeOn (KnownAfter P i) (finish s rd v) (finish u rd v) where
  cfg := by simp [h.cfg]
  pc := by simp [h.pc]
  mem := by simp [h.mem]
  fault := by simp [h.fault]
  freeCount := by simp [h.freeCount]
  read q hq := by
    rw [readReg_finish, readReg_finish, h.cfg]
    by_cases hrd : q = rd
    · rw [if_pos hrd, if_pos hrd]
    · have hne : destination i ≠ some q := fun e => hrd (Option.some_inj.mp (e.symm.trans hd))
      rw [if_neg hrd, if_neg hrd, h.read q (hq.resolve_right hne)]

/-- An instruction that writes no register makes none known. -/
theorem AgreeOn.of_no_destination (h : AgreeOn P s u) (hd : destination i = none) : AgreeOn (KnownAfter P i) s u :=
  { h with read := fun q hq => h.read q (hq.resolve_right (by simp [hd])) }

theorem AgreeOn.readByte (h : AgreeOn P s u) (a : Word) : readByte u a = readByte s a :=
  congrArg (Memory.read · a.toNat) h.mem

theorem AgreeOn.readWord (h : AgreeOn P s u) (a : Word) : readWord u a = readWord s a := by
  simp only [Machine.readWord, h.cfg, h.readByte]

theorem AgreeOn.otherByte (h : AgreeOn P s u) (p : OtherByte) {old old' : Byte} (ho : p = .preserve → old' = old) :
    otherByte p u old' = otherByte p s old := by
  cases p with
  | preserve => exact ho rfl
  | zero => rfl
  | any => exact congrArg Config.freeByte h.freeCount

/-! ### The same instruction on two states that agree -/

theorem AgreeOn.sameOutcome_finish (h : AgreeOn P s u) (p : OtherByte) {rd : Reg} {v v' : Word}
    (hd : destination i = some rd) (hv : v' = v) :
    SameOutcome (KnownAfter P i) (.next (Machine.finish (Machine.drawOther p s) rd v))
      (.next (Machine.finish (Machine.drawOther p u) rd v')) :=
  .next (hv ▸ (h.drawOther p).finish hd v)

theorem AgreeOn.sameOutcome_branch (h : AgreeOn P s u) {b b' : Bool} (imm : Byte) (hd : destination i = none)
    (hb : b' = b) : SameOutcome (KnownAfter P i) (.next (Machine.branch b s imm)) (.next (Machine.branch b' u imm)) :=
  .next (hb ▸ (h.branch b imm).of_no_destination hd)

/-- Instructions on states that agree on the sources have the same outcome, and agree on the destination (R13). -/
theorem exec_sameOutcome (h : AgreeOn P s u) (hP : ∀ q ∈ sources s.cfg i, P q) :
    SameOutcome (KnownAfter P i) (exec i s) (exec i u) := by
  have hread : ∀ q ∈ sources s.cfg i, readReg u q = readReg s q := fun q hq => h.read q (hP q hq)
  cases i
  case nop => exact .next (h.advance.of_no_destination rfl)
  case mov rd rs => exact h.sameOutcome_finish .zero rfl (by rw [hread rs (.head _)])
  case not rd rs => exact h.sameOutcome_finish .zero rfl (by rw [hread rs (.head _)])
  case xor rd rs => exact h.sameOutcome_finish .zero rfl (by rw [hread rd (.head _), hread rs (.tail _ (.head _))])
  case add rd rs => exact h.sameOutcome_finish .zero rfl (by rw [hread rd (.head _), hread rs (.tail _ (.head _))])
  case sub rd rs => exact h.sameOutcome_finish .zero rfl (by rw [hread rd (.head _), hread rs (.tail _ (.head _))])
  case sl8 rd rs => exact h.sameOutcome_finish .zero rfl (by rw [hread rs (.head _)])
  case sr8 rd rs => exact h.sameOutcome_finish .zero rfl (by rw [hread rs (.head _)])
  case sl rd rs => exact h.sameOutcome_finish .zero rfl (by rw [hread rs (.head _)])
  case sr rd rs => exact h.sameOutcome_finish .zero rfl (by rw [hread rs (.head _)])
  case and rd rs => exact h.sameOutcome_finish .zero rfl (by rw [hread rd (.head _), hread rs (.tail _ (.head _))])
  case or rd rs => exact h.sameOutcome_finish .zero rfl (by rw [hread rd (.head _), hread rs (.tail _ (.head _))])
  case sw rd rs =>
    have hd : readReg u rd = readReg s rd := hread rd (.head _)
    have ha : effectiveAddress u rs = effectiveAddress s rs := hread rs (.tail _ (.head _))
    simp only [exec, execSw, hd, ha, dataWordFault_congr h.cfg]
    cases dataWordFault s (effectiveAddress s rs) with
    | some f => exact .fault f
    | none => exact .next ((h.writeWord _ _).advance.of_no_destination rfl)
  case lw rd rs =>
    have ha : effectiveAddress u rs = effectiveAddress s rs := hread rs (.head _)
    simp only [exec, execLw, ha, dataWordFault_congr h.cfg]
    cases dataWordFault s (effectiveAddress s rs) with
    | some f => exact .fault f
    | none => exact h.sameOutcome_finish .zero rfl (h.readWord _)
  case sbu rd rs =>
    have hd : readReg u rd = readReg s rd := hread rd (.head _)
    have ha : effectiveAddress u rs = effectiveAddress s rs := hread rs (.tail _ (.head _))
    simp only [exec, execSbu, hd, ha, byteFault_congr h.cfg]
    cases byteFault s (effectiveAddress s rs) with
    | some f => exact .fault f
    | none => exact .next ((h.writeByte _ _).advance.of_no_destination rfl)
  case lbu rd rs =>
    have ha : effectiveAddress u rs = effectiveAddress s rs :=
      hread rs (by simp only [sources]; split <;> simp)
    have hold : s.cfg.lbuOther = .preserve → readReg u rd = readReg s rd := fun hp =>
      hread rd (by simp [sources, hp])
    simp only [exec, execLbu, ha, byteFault_congr h.cfg, h.cfg]
    cases byteFault s (effectiveAddress s rs) with
    | some f => exact .fault f
    | none =>
      refine h.sameOutcome_finish _ rfl ?_
      rw [h.otherByte _ fun hp => by rw [hold hp], h.readByte]
  case lli rd imm =>
    simp only [exec, execLli, h.cfg]
    refine h.sameOutcome_finish _ rfl ?_
    rw [h.otherByte _ fun hp => by rw [hread rd (by simp [sources, hp])]]
  case lui rd imm =>
    simp only [exec, execLui, h.cfg]
    refine h.sameOutcome_finish _ rfl ?_
    rw [h.otherByte _ fun hp => by rw [hread rd (by simp [sources, hp])]]
  case xori rd imm => exact h.sameOutcome_finish .zero rfl (by rw [hread rd (.head _), h.cfg])
  case addi rd imm => exact h.sameOutcome_finish .zero rfl (by rw [hread rd (.head _)])
  case andi rd imm => exact h.sameOutcome_finish .zero rfl (by rw [hread rd (.head _)])
  case ori rd imm => exact h.sameOutcome_finish .zero rfl (by rw [hread rd (.head _)])
  case beqz rd imm => exact h.sameOutcome_branch imm rfl (by rw [hread rd (.head _)])
  case bnez rd imm => exact h.sameOutcome_branch imm rfl (by rw [hread rd (.head _)])
  case bmi rd imm => exact h.sameOutcome_branch imm rfl (by rw [hread rd (.head _)])
  case bpl rd imm => exact h.sameOutcome_branch imm rfl (by rw [hread rd (.head _)])
  case j imm => exact h.sameOutcome_branch (b := true) imm rfl rfl

end Agreement

/-- Settles O33: setting a register that is not read leaves every source as it was, so the outcome is the same
(`exec_sameOutcome`). -/
theorem unreadRegistersDoNotMatter : Obligations.UnreadRegistersDoNotMatter := by
  intro i s r v hr
  have hsame := exec_sameOutcome (agreeOn_setReg s r v) (i := i) fun q hq hqr => hr (hqr ▸ hq)
  refine ⟨fun f hf => ?_, fun t ht => ?_⟩
  · exact (hf ▸ hsame).eq_fault
  · obtain ⟨u, hu, hagree⟩ := (ht ▸ hsame).exists_next
    exact ⟨u, hu, hagree.pc, hagree.mem, hagree.cfg, hagree.fault, hagree.freeCount, hagree.read⟩

end Sys2Proof.Machine

namespace Sys2Proof.Machine

variable {s t : State} {i : Instr}

/-! ### The bytes of memory a step leaves -/

/-- Only the two stores write memory, and only at the addresses they store to (R39, R41). -/
theorem exec_sameMemoryOutside_storedBytes (h : exec i s = .next t) : SameMemoryOutside s t (storedBytes i s) := by
  obtain ⟨p, rd, v, -, -, -, rfl⟩ | ⟨rd, rs, rfl, -, rfl⟩ | ⟨rd, rs, rfl, -, rfl⟩ | ⟨-, rfl⟩ | ⟨b, imm, -, -, -, rfl⟩ :=
    exec_next_cases h
  · intro a _
    rw [finish_mem, drawOther_mem]
  · exact sameMemoryOutside_writeWord s _ _
  · exact sameMemoryOutside_writeByte s _ _
  · exact fun _ _ => rfl
  · intro a _
    rw [branch_mem]

/-- Settles O34: the instruction is the one the step fetched (`step_next_cases`), and a byte that changed is among those
it stores to. -/
theorem onlyStoresWriteMemory : Obligations.OnlyStoresWriteMemory := by
  intro s t a h hchanged
  obtain ⟨-, i, hfetch, hexec⟩ := step_next_cases h
  by_contra hnone
  exact hchanged (exec_sameMemoryOutside_storedBytes hexec a fun w hw haw => hnone ⟨i, hfetch, w, hw, haw⟩)

/-! ### Bytes and words at one address -/

theorem readByte_writeWord_first (s : State) (a v : Word) :
    readByte (writeWord s a v) a = firstByte s.cfg.byteOrder v := by
  rw [readByte_writeWord, if_neg (succ_ne a).symm, if_pos rfl]

theorem readByte_writeWord_second (s : State) (a v : Word) :
    readByte (writeWord s a v) (a + 1) = secondByte s.cfg.byteOrder v := by
  rw [readByte_writeWord, if_pos rfl]

/-- Two neighbouring bytes read as the word they make (R35, R42). -/
theorem readWord_writeByte_writeByte (s : State) (a : Word) (b0 b1 : Byte) :
    readWord (writeByte (writeByte s a b0) (a + 1) b1) a = wordOfBytes s.cfg.byteOrder b0 b1 := by
  simp [readWord, readByte_writeByte]

/-- Settles O19: the three lemmas above, at each byte order. The address need not be even. -/
theorem mixedWidthsAgree : Obligations.MixedWidthsAgree := by
  intro s a v b0 b1 _
  have hfirst := readByte_writeWord_first s a v
  have hsecond := readByte_writeWord_second s a v
  have hword := readWord_writeByte_writeByte s a b0 b1
  cases horder : s.cfg.byteOrder <;> rw [horder] at hfirst hsecond hword <;> exact ⟨hfirst, hsecond, hword⟩

/-! ### The word accesses -/

/-- `sw` completes exactly when its access raises nothing, and then it has stored the register (R101). -/
theorem exec_sw_eq_next_iff {rd rs : Reg} :
    exec (.sw rd rs) s = .next t ↔ dataWordFault s (effectiveAddress s rs) = none ∧
      t = advance (writeWord s (effectiveAddress s rs) (readReg s rd)) := by
  simp only [exec, execSw]
  cases dataWordFault s (effectiveAddress s rs) with
  | some f => simp [raise]
  | none => simp [eq_comm]

/-- `lw` completes where its access raises nothing (R102). -/
theorem exec_lw_of_no_fault {rs : Reg} (rd : Reg) (h : dataWordFault s (effectiveAddress s rs) = none) :
    exec (.lw rd rs) s = .next (finish s rd (readWord s (effectiveAddress s rs))) := by
  simp only [exec, execLw, h]

theorem execAll_cons_of_next {is : List Instr} (h : exec i s = .next t) : execAll (i :: is) s = execAll is t := by
  simp only [execAll, h]

@[simp] theorem effectiveAddress_advance_writeWord (s : State) (a v : Word) (rs : Reg) :
    effectiveAddress (advance (writeWord s a v)) rs = effectiveAddress s rs := rfl

/-- Settles O20: the store leaves parameters and registers, so that the load finds the same address, accessible as before,
and reads back the word stored there (`readWord_writeWord`). -/
theorem storeThenLoadReturnsTheWord : Obligations.StoreThenLoadReturnsTheWord := by
  intro rd rs rt s heven hbacked hbacked'
  have hnofault : dataWordFault s (effectiveAddress s rs) = none :=
    (dataWordFault_eq_none_iff s _).mpr ⟨heven, hbacked, hbacked'⟩
  have hstore := exec_sw_eq_next_iff (rd := rd).mpr ⟨hnofault, rfl⟩
  have hload := exec_lw_of_no_fault rt
    ((dataWordFault_congr (advance_cfg (writeWord s (effectiveAddress s rs) (readReg s rd))) _).trans hnofault)
  refine ⟨_, (execAll_cons_of_next hstore).trans (execAll_cons_of_next hload), ?_⟩
  rw [readReg_finish, if_pos rfl, effectiveAddress_advance_writeWord, readWord_advance, readWord_writeWord, advance_cfg,
    writeWord_cfg]

/-- Settles O21: a `sw` that completes found its address even and backed, which is all a fetch from it asks, and the word
read there is the one stored. -/
theorem fetchSeesTheStore : Obligations.FetchSeesTheStore := by
  intro rd rs s t h
  obtain ⟨hnofault, rfl⟩ := exec_sw_eq_next_iff.mp h
  have hword : fetchWord ((advance (writeWord s (effectiveAddress s rs) (readReg s rd))).setPc (effectiveAddress s rs)) =
      readReg s rd := by
    rw [fetchWord_setPc, readWord_advance, readWord_writeWord]
  refine ⟨hword, fun i hdecode hnone => step_of_fetch hnone ?_⟩
  obtain ⟨heven, hbacked, hbacked'⟩ := (dataWordFault_eq_none_iff s _).mp hnofault
  exact fetchInstr_ok_iff.mpr ⟨heven, hbacked, hbacked', hword.symm ▸ hdecode⟩

end Sys2Proof.Machine

namespace Sys2Proof

/-! ### The rows of the opcode map (R57) and the decoder -/

/-- The word lies in the row of the instruction: its bits under the row's mask are the row's match (R57). -/
def InRow (w : Word) (i : Instr) : Prop := w &&& (opcodeRow i).1 = (opcodeRow i).2

/-- The instruction of the same row whose operands are the fields of `w` (R52, R53). -/
def Instr.atFields (w : Word) : Instr → Instr
  | .nop => .nop
  | .mov _ _ => .mov (rdField w) (rsField w)
  | .not _ _ => .not (rdField w) (rsField w)
  | .xor _ _ => .xor (rdField w) (rsField w)
  | .add _ _ => .add (rdField w) (rsField w)
  | .sub _ _ => .sub (rdField w) (rsField w)
  | .sl8 _ _ => .sl8 (rdField w) (rsField w)
  | .sr8 _ _ => .sr8 (rdField w) (rsField w)
  | .sl _ _ => .sl (rdField w) (rsField w)
  | .sr _ _ => .sr (rdField w) (rsField w)
  | .and _ _ => .and (rdField w) (rsField w)
  | .or _ _ => .or (rdField w) (rsField w)
  | .sw _ _ => .sw (rdField w) (rsField w)
  | .lw _ _ => .lw (rdField w) (rsField w)
  | .sbu _ _ => .sbu (rdField w) (rsField w)
  | .lbu _ _ => .lbu (rdField w) (rsField w)
  | .lli _ _ => .lli (rdField w) (immField w)
  | .xori _ _ => .xori (rdField w) (immField w)
  | .addi _ _ => .addi (rdField w) (immField w)
  | .lui _ _ => .lui (rdField w) (immField w)
  | .andi _ _ => .andi (rdField w) (immField w)
  | .ori _ _ => .ori (rdField w) (immField w)
  | .beqz _ _ => .beqz (rdField w) (immField w)
  | .bnez _ _ => .bnez (rdField w) (immField w)
  | .bmi _ _ => .bmi (rdField w) (immField w)
  | .bpl _ _ => .bpl (rdField w) (immField w)
  | .j _ => .j (immField w)

variable {w : Word} {i k : Instr}

/-- A row has the mask of the R-format and a function code, or the mask of the I-format and an opcode that is not the
R-format's (R51 to R53, R57). -/
theorem opcodeRow_cases (i : Instr) :
    opcodeRow i = (0xF81F#16, 0#5 ++ 0#6 ++ codeOf i) ∨
      opcodeRow i = (0xF800#16, codeOf i ++ 0#11) ∧ codeOf i ≠ 0#5 := by
  cases i
  case nop | mov | not | xor | add | sub | sl8 | sr8 | sl | sr | and | or | sw | lw | sbu | lbu =>
    exact .inl (by simp [opcodeRow, codeOf])
  all_goals exact .inr (by simp [opcodeRow, codeOf])

theorem inRow_iff_of_register (hmask : (opcodeRow i).1 = 0xF81F#16) :
    InRow w i ↔ opField w = 0#5 ∧ functField w = codeOf i := by
  obtain hrow | ⟨hrow, -⟩ := opcodeRow_cases i
  · unfold InRow
    rw [hrow]
    exact register_mask_iff w rfl
  · rw [hrow] at hmask
    exact absurd hmask (by decide : ¬ 0xF800#16 = 0xF81F#16)

theorem inRow_iff_of_immediate (hmask : (opcodeRow i).1 = 0xF800#16) :
    InRow w i ↔ opField w = codeOf i ∧ codeOf i ≠ 0#5 := by
  obtain hrow | ⟨hrow, hne⟩ := opcodeRow_cases i
  · rw [hrow] at hmask
    exact absurd hmask (by decide : ¬ 0xF81F#16 = 0xF800#16)
  · unfold InRow
    rw [hrow, and_iff_left hne]
    exact immediate_mask_iff w rfl

theorem decodeWord_of_register (h : opField w = 0#5) : decodeWord w = decodeRegister w := if_pos h

theorem decodeWord_of_immediate (h : opField w ≠ 0#5) : decodeWord w = decodeImmediate w := if_neg h

/-- A word decodes into its row (R56, R57). -/
theorem inRow_of_decodeWord (h : decodeWord w = some i) : InRow w i := by
  by_cases hop : opField w = 0#5
  · obtain ⟨hfunct, -, hmask⟩ := decodeRegister_eq_some (decodeWord_of_register hop ▸ h)
    exact (inRow_iff_of_register hmask).mpr ⟨hop, hfunct⟩
  · obtain ⟨hcode, -, hmask⟩ := decodeImmediate_eq_some (decodeWord_of_immediate hop ▸ h)
    exact (inRow_iff_of_immediate hmask).mpr ⟨hcode, hcode ▸ hop⟩

/-- A word of a row decodes to that row's instruction of its fields (R56, R57). -/
theorem decodeWord_of_inRow (h : InRow w i) : decodeWord w = some (i.atFields w) := by
  cases i
  case nop | mov | not | xor | add | sub | sl8 | sr8 | sl | sr | and | or | sw | lw | sbu | lbu =>
    obtain ⟨hop, hfunct⟩ := (inRow_iff_of_register rfl).mp h
    simp only [decodeWord_of_register hop, decodeRegister, hfunct]
    rfl
  all_goals
    obtain ⟨hop, hne⟩ := (inRow_iff_of_immediate rfl).mp h
    simp only [decodeWord_of_immediate (hop ▸ hne), decodeImmediate, hop]
    rfl

@[simp] theorem opcodeRow_atFields (w : Word) (i : Instr) : opcodeRow (i.atFields w) = opcodeRow i := by
  cases i <;> rfl

@[simp] theorem mnemonic_atFields (w : Word) (i : Instr) : Machine.mnemonic (i.atFields w) = Machine.mnemonic i := by
  cases i <;> rfl

/-- R57 for every row at once: the words of a row are those that decode to its instruction with their fields as
operands. -/
theorem encodedBy_atFields (i : Instr) :
    Machine.EncodedBy (opcodeRow i).1 (opcodeRow i).2 fun w => i.atFields w := by
  refine fun w => ⟨fun h => ?_, decodeWord_of_inRow⟩
  have hrow := inRow_of_decodeWord h
  rwa [InRow, opcodeRow_atFields] at hrow

/-! ### Encoded instructions -/

/-- The encoding of every instruction lies in its row (R57). -/
theorem inRow_encode (i : Instr) : InRow (encode i) i := by
  cases i
  case nop | mov | not | xor | add | sub | sl8 | sr8 | sl | sr | and | or | sw | lw | sbu | lbu =>
    exact Laws.EncodingMatchesRow.of_register _ _ _
  all_goals exact Laws.EncodingMatchesRow.of_immediate _ _ _

/-- The fields of an encoding are the operands (R52, R53). -/
theorem atFields_encode (i : Instr) : i.atFields (encode i) = i := by
  cases i <;> simp [Instr.atFields, encode]

theorem decodeWord_encode (i : Instr) : decodeWord (encode i) = some i := by
  rw [decodeWord_of_inRow (inRow_encode i), atFields_encode]

theorem decodeBytes_of_decodeWord {o : ByteOrder} {b0 b1 : Byte} (h : decodeWord (wordOfBytes o b0 b1) = some i)
    (rest : List Byte) : decodeBytes o (b0 :: b1 :: rest) = .ok (i, rest) := by
  simp only [decodeBytes, h]

/-- Settles O2: the encoding lies in the instruction's row and its fields are the operands (`decodeWord_encode`), and
the two bytes of a word make up the word again in the order they were laid (`wordOfBytes_split`). -/
theorem decodeReadsEncode : Obligations.DecodeReadsEncode := by
  refine ⟨decodeWord_encode, fun o i rest => decodeBytes_of_decodeWord ?_ rest⟩
  rw [wordOfBytes_split, decodeWord_encode]

/-! ### Mnemonics and rows -/

/-- One instruction of each row of R57. -/
def oneOfEachRow : List Instr :=
  [.nop, .mov 0 0, .not 0 0, .xor 0 0, .add 0 0, .sub 0 0, .sl8 0 0, .sr8 0 0, .sl 0 0, .sr 0 0, .and 0 0, .or 0 0,
    .sw 0 0, .lw 0 0, .sbu 0 0, .lbu 0 0, .lli 0 0, .xori 0 0, .addi 0 0, .lui 0 0, .andi 0 0, .ori 0 0, .beqz 0 0,
    .bnez 0 0, .bmi 0 0, .bpl 0 0, .j 0]

/-- The opcode map of R57 as a table: the mask and the match of a mnemonic. -/
def rowOfMnemonic (name : String) : Option (Word × Word) :=
  (oneOfEachRow.map fun i => (Machine.mnemonic i, opcodeRow i)).lookup name

/-- The table holds every instruction's row, so that no two rows share a mnemonic. -/
theorem rowOfMnemonic_mnemonic (i : Instr) : rowOfMnemonic (Machine.mnemonic i) = some (opcodeRow i) := by
  cases i <;> rfl

theorem opcodeRow_eq_of_mnemonic_eq (h : Machine.mnemonic k = Machine.mnemonic i) : opcodeRow k = opcodeRow i := by
  rw [← Option.some_inj, ← rowOfMnemonic_mnemonic, h, rowOfMnemonic_mnemonic]

/-- Settles O3: a word of the row decodes to the row's instruction (`decodeWord_of_inRow`), and what a word decodes to
names the row the word lies in (`inRow_of_decodeWord`, `opcodeRow_eq_of_mnemonic_eq`). -/
theorem opcodeMapDecidesDecoding : Obligations.OpcodeMapDecidesDecoding := by
  refine fun w i => ⟨fun hrow => ⟨i.atFields w, decodeWord_of_inRow hrow, mnemonic_atFields w i⟩, ?_⟩
  rintro ⟨k, hdecode, hname⟩
  have hrow : InRow w k := inRow_of_decodeWord hdecode
  rwa [InRow, opcodeRow_eq_of_mnemonic_eq hname] at hrow

/-! ### Ignored bits (R55) -/

/-- Clearing `ddd` of an I-format word leaves its opcode and its immediate. -/
theorem encodeImmediate_and_clear_rd (op : BitVec 5) (rd : Reg) (imm : Byte) :
    encodeImmediate op rd imm &&& 0xF8FF#16 = encodeImmediate op 0 imm := by
  have hmask : 0xF8FF#16 = BitVec.allOnes 5 ++ 0#3 ++ BitVec.allOnes 8 := by decide
  rw [encodeImmediate, hmask, BitVec.and_append, BitVec.and_append, BitVec.and_allOnes, BitVec.and_allOnes,
    BitVec.and_zero]
  rfl

/-- What decodes to neither `nop` nor `j` is the encoding of its instruction: every bit is used. -/
theorem encode_of_decodeWord (h : decodeWord w = some i) (hnop : i ≠ .nop) (hj : ∀ imm, i ≠ .j imm) :
    encode i = w := by
  by_cases hop : opField w = 0#5
  · obtain ⟨-, henc, -⟩ := decodeRegister_eq_some (decodeWord_of_register hop ▸ h)
    rw [henc.resolve_left hnop, encodeRegister_fields hop]
  · obtain ⟨-, henc, -⟩ := decodeImmediate_eq_some (decodeWord_of_immediate hop ▸ h)
    rw [henc.resolve_left (hj _), encodeImmediate_fields]

/-- What decodes to `j` has its opcode and its immediate (R53). -/
theorem encodeImmediate_of_decodeWord_j {imm : Byte} (h : decodeWord w = some (.j imm)) :
    encodeImmediate 0b11000#5 (rdField w) imm = w := by
  have hrow := inRow_of_decodeWord h
  obtain ⟨hop, -⟩ := (inRow_iff_of_immediate rfl).mp hrow
  have himm : imm = immField w := by simpa [Instr.atFields, h] using decodeWord_of_inRow hrow
  rw [himm, ← show opField w = 0b11000#5 from hop, encodeImmediate_fields]

/-- Settles O6: the word of `nop` lies in its row, which is zero under its mask; a word of `j` differs from the encoding
in `ddd` alone; every other word is the encoding. -/
theorem encodeRestoresTheWord : Obligations.EncodeRestoresTheWord := by
  intro w i h
  split
  case h_1 => exact (inRow_of_decodeWord h).symm
  case h_2 imm =>
    rw [← encodeImmediate_of_decodeWord_j h, encodeImmediate_and_clear_rd]
    rfl
  case h_3 hnop hj => exact encode_of_decodeWord h hnop hj

/-- Settles O5: the words lie in the rows of `nop` and `j`, whose masks leave those bits out. -/
theorem unusedBitsAreIgnored : Obligations.UnusedBitsAreIgnored := by
  refine ⟨fun rd rs => ?_, fun rd imm => ?_, rfl, fun imm => encodeImmediate_toNat _ 0 imm⟩
  · exact decodeWord_of_inRow (i := .nop) (Laws.EncodingMatchesRow.of_register _ rd rs)
  · rw [decodeWord_of_inRow (i := .j imm) (Laws.EncodingMatchesRow.of_immediate 0b11000#5 rd imm),
      Instr.atFields, immField_encodeImmediate]

/-! ### Illegal words (R58) -/

/-- The function codes of R57. -/
def functionCodes : List (BitVec 5) := [0, 1, 2, 3, 4, 5, 6, 7, 8, 9, 10, 11, 16, 17, 18, 19]

/-- The opcodes of R57 but for that of the R-format. -/
def immediateOpcodes : List (BitVec 5) := [1, 3, 4, 6, 10, 11, 16, 17, 18, 19, 24]

theorem decodeRegister_eq_none_iff (w : Word) : decodeRegister w = none ↔ functField w ∉ functionCodes := by
  unfold decodeRegister
  split
  case h_17 => simp_all [functionCodes]
  all_goals
    rename_i h
    rw [h]
    exact iff_of_false (by simp) (by decide)

theorem decodeImmediate_eq_none_iff (w : Word) : decodeImmediate w = none ↔ opField w ∉ immediateOpcodes := by
  unfold decodeImmediate
  split
  case h_12 => simp_all [immediateOpcodes]
  all_goals
    rename_i h
    rw [h]
    exact iff_of_false (by simp) (by decide)

theorem decodeWord_eq_none_iff (w : Word) :
    decodeWord w = none ↔
      (opField w = 0#5 ∧ functField w ∉ functionCodes) ∨ (opField w ≠ 0#5 ∧ opField w ∉ immediateOpcodes) := by
  by_cases hop : opField w = 0#5
  · simp [decodeWord_of_register hop, decodeRegister_eq_none_iff, hop]
  · simp [decodeWord_of_immediate hop, decodeImmediate_eq_none_iff, hop]

/-- The function codes R58 lists as illegal are the others. -/
theorem notMem_functionCodes_iff : ∀ f : BitVec 5, f ∉ functionCodes ↔
    (0b01100 ≤ f.toNat ∧ f.toNat ≤ 0b01111) ∨ (0b10100 ≤ f.toNat ∧ f.toNat ≤ 0b11111) := by
  decide

/-- The opcodes R58 lists as illegal are the others. -/
theorem notMem_immediateOpcodes_iff : ∀ op : BitVec 5, (op ≠ 0#5 ∧ op ∉ immediateOpcodes) ↔
    op ∈ [0b00010#5, 0b00101#5, 0b00111#5, 0b01000#5, 0b01001#5, 0b01100#5, 0b01101#5, 0b01110#5, 0b01111#5,
      0b10100#5, 0b10101#5, 0b10110#5, 0b10111#5, 0b11001#5, 0b11010#5, 0b11011#5, 0b11100#5, 0b11101#5, 0b11110#5,
      0b11111#5] := by
  decide

end Sys2Proof

namespace Sys2Proof.Machine

/-! ### A step onto an illegal word (R58, R121) -/

variable {s : State} {f : Fault}

theorem fetchInstr_of_illegal (heven : s.pc.toNat % 2 = 0) (hbacked : backed s.cfg s.pc = true)
    (hbacked' : backed s.cfg (s.pc + 1) = true) (hillegal : decodeWord (fetchWord s) = none) :
    fetchInstr s = .error (.illegalInstruction (fetchWord s)) := by
  rw [fetchInstr_eq, (fetchFault_eq_none_iff s).mpr ⟨heven, hbacked, hbacked'⟩, hillegal]

/-- A step of a running machine whose fetch faults raises that fault (R146). -/
theorem step_of_fetch_fault (hnone : s.fault = none) (h : fetchInstr s = .error f) : step s = .fault f := by
  simp [step, hnone, h, raise]

/-- A raised fault is recorded, and nothing else changes (R21, R120). -/
theorem tick_of_step_fault (h : step s = .fault f) : tick s = { s with fault := some f } := by
  simp only [tick, h]
  rfl

/-- Settles O4: the codes that are no row's are the listed ones; the fetch of such a word raises the fault, which is
recorded. -/
theorem illegalWordsFault : Obligations.IllegalWordsFault := by
  refine ⟨fun w => ?_, fun s hnone heven hbacked hbacked' hillegal => ?_⟩
  · rw [decodeWord_eq_none_iff, notMem_functionCodes_iff, notMem_immediateOpcodes_iff]
  · have hstep := step_of_fetch_fault hnone (fetchInstr_of_illegal heven hbacked hbacked' hillegal)
    exact ⟨hstep, tick_of_step_fault hstep⟩

/-! ### Immediates written as numbers (R63) -/

theorem immediateFits_iff (n : Int) : immediateFits n = true ↔ -128 ≤ n ∧ n ≤ 255 := by
  simp [immediateFits]

/-- Settles O49: the field is the number modulo 256, which over the range written is `n`, or `256 + n` below zero. -/
theorem immediateNotation : Obligations.ImmediateNotation := by
  refine fun n => ⟨fun hfits => ?_, fun hfits => ?_⟩
  · refine ⟨BitVec.ofInt 8 n, if_pos ((immediateFits_iff n).mpr hfits), ?_⟩
    rw [BitVec.toNat_ofInt]
    split <;> omega
  · exact if_neg (mt (immediateFits_iff n).mp hfits)

end Sys2Proof.Machine

namespace Sys2Proof.Machine

/-! ### The results of the register-register instructions (R70 to R83) -/

variable {s : State} {i : Instr} {rd : Reg} {v v' : Word}

/-- The effect of an instruction whose meaning writes `v` and advances, stated for the word `v'` the rules name. -/
theorem computesInto_of_exec_eq_finish (h : exec i s = .next (finish s rd v)) (hv : v = v') :
    ∃ t, exec i s = .next t ∧ ComputesInto s t rd v' 0 :=
  ⟨_, h, hv ▸ finish_computesInto s rd v⟩

/-- The inverted bits of a word, as a number (R74). -/
theorem not_eq_ofNat_sub (w : Word) : ~~~w = BitVec.ofNat 16 (0xFFFF - w.toNat) := by
  apply BitVec.eq_of_toNat_eq
  rw [BitVec.toNat_not, BitVec.toNat_ofNat]
  omega

/-- The machine's sum is the sum of the numbers, the carry lost (R71, R76). -/
theorem add_eq_ofNat_mod (w x : Word) : w + x = BitVec.ofNat 16 ((w.toNat + x.toNat) % 65536) := by
  apply BitVec.eq_of_toNat_eq
  rw [BitVec.toNat_add, BitVec.toNat_ofNat]
  omega

/-- The machine's difference is that of the integers, the borrow lost (R71, R77). -/
theorem sub_eq_ofInt_mod (w x : Word) : w - x = BitVec.ofInt 16 (((w.toNat : Int) - (x.toNat : Int)) % 65536) := by
  apply BitVec.eq_of_toNat_eq
  rw [BitVec.toNat_sub, BitVec.toNat_ofInt]
  omega

/-- Eight places to the left, the lower byte is the higher one (R78). -/
theorem shiftLeft_eight_eq_joinBytes (w : Word) : w <<< 8 = joinBytes (lowByte w) 0x00#8 := by
  apply BitVec.eq_of_toNat_eq
  rw [BitVec.toNat_shiftLeft, Nat.shiftLeft_eq, joinBytes_toNat, lowByte_toNat, BitVec.toNat_ofNat]
  omega

/-- Eight places to the right, the higher byte is the lower one (R79). -/
theorem shiftRight_eight_eq_joinBytes (w : Word) : w >>> 8 = joinBytes 0x00#8 (highByte w) := by
  apply BitVec.eq_of_toNat_eq
  rw [BitVec.toNat_ushiftRight, Nat.shiftRight_eq_div_pow, joinBytes_toNat, highByte_toNat, BitVec.toNat_ofNat]
  omega

/-- One place to the left doubles, bit 15 lost (R80). -/
theorem shiftLeft_one_eq_ofNat_mod (w : Word) : w <<< 1 = BitVec.ofNat 16 (w.toNat * 2 % 65536) := by
  apply BitVec.eq_of_toNat_eq
  rw [BitVec.toNat_shiftLeft, Nat.shiftLeft_eq, BitVec.toNat_ofNat]
  omega

/-- One place to the right halves, bit 0 lost (R81). -/
theorem shiftRight_one_eq_ofNat_div (w : Word) : w >>> 1 = BitVec.ofNat 16 (w.toNat / 2) := by
  apply BitVec.eq_of_toNat_eq
  rw [BitVec.toNat_ushiftRight, Nat.shiftRight_eq_div_pow, BitVec.toNat_ofNat]
  omega

/-- Settles O8: the rows of R57, and the result written is the register, or its complement to `0xFFFF`. -/
theorem movAndNotResults : Obligations.MovAndNotResults := by
  refine ⟨encodedBy_atFields (.mov 0 0), encodedBy_atFields (.not 0 0), fun rd rs s => ⟨?mov, ?not⟩⟩
  case mov => exact computesInto_of_exec_eq_finish rfl rfl
  case not => exact computesInto_of_exec_eq_finish rfl (not_eq_ofNat_sub _)

/-- Settles O9: the rows of R57, and the result written is the bitwise one of the old values. -/
theorem logicResults : Obligations.LogicResults := by
  refine ⟨encodedBy_atFields (.xor 0 0), encodedBy_atFields (.and 0 0), encodedBy_atFields (.or 0 0), fun rd rs s => ?_⟩
  refine ⟨?xor, ?and, ?or⟩ <;> exact computesInto_of_exec_eq_finish rfl rfl

/-- Settles O10: the rows of R57, and the machine's sum and difference are those of the numbers modulo 2^16. -/
theorem addAndSubResults : Obligations.AddAndSubResults := by
  refine ⟨encodedBy_atFields (.add 0 0), encodedBy_atFields (.sub 0 0), fun rd rs s => ⟨?add, ?sub⟩⟩
  case add => exact computesInto_of_exec_eq_finish rfl (add_eq_ofNat_mod _ _)
  case sub => exact computesInto_of_exec_eq_finish rfl (sub_eq_ofInt_mod _ _)

/-- Settles O11: the rows of R57, and the machine's shifts move a byte, double or halve. -/
theorem shiftResults : Obligations.ShiftResults := by
  refine ⟨encodedBy_atFields (.sl8 0 0), encodedBy_atFields (.sr8 0 0), encodedBy_atFields (.sl 0 0),
    encodedBy_atFields (.sr 0 0), fun rd rs s => ⟨?sl8, ?sr8, ?sl, ?sr⟩⟩
  case sl8 => exact computesInto_of_exec_eq_finish rfl (shiftLeft_eight_eq_joinBytes _)
  case sr8 => exact computesInto_of_exec_eq_finish rfl (shiftRight_eight_eq_joinBytes _)
  case sl => exact computesInto_of_exec_eq_finish rfl (shiftLeft_one_eq_ofNat_mod _)
  case sr => exact computesInto_of_exec_eq_finish rfl (shiftRight_one_eq_ofNat_div _)

/-- Settles O7: the row of `nop` leaves `ddd` and `sss` out, and its meaning is the advance of `pc`. -/
theorem nopAdvancesOnly : Obligations.NopAdvancesOnly :=
  ⟨encodedBy_atFields .nop, rfl, fun s => ⟨advance s, rfl, advance_onlyPcChanges s, advances_of_pc (advance_pc s)⟩⟩

end Sys2Proof.Machine

namespace Sys2Proof.Machine

/-! ### The results of the register-immediate instructions (R90 to R96) -/

variable {s : State} {i : Instr} {p : OtherByte} {rd : Reg} {v : Word}

/-- The effect of an instruction that names one byte of `rd`, whichever way its parameter chooses the other. -/
theorem computesInto_of_exec_eq_finish_drawOther (h : exec i s = .next (finish (drawOther p s) rd v)) :
    ∃ t, exec i s = .next t ∧ ComputesInto s t rd v (drawsOf p) :=
  ⟨_, h, finish_drawOther_computesInto s p rd v⟩

/-- Zero extension keeps the number (R8). -/
theorem zext16_eq_ofNat (b : Byte) : zext16 b = BitVec.ofNat 16 b.toNat := by
  rw [← zext16_toNat, BitVec.ofNat_toNat, BitVec.setWidth_eq]

/-- The machine's sum with a widened immediate is that of the integers, the carry lost (R71, R93). -/
theorem add_sext16_eq_ofInt_mod (w : Word) (b : Byte) :
    w + sext16 b = BitVec.ofInt 16 (((w.toNat : Int) + b.toInt) % 65536) := by
  apply BitVec.eq_of_toNat_eq
  rw [sext16_eq_ofInt, BitVec.toNat_add, BitVec.toNat_ofInt, BitVec.toNat_ofInt]
  omega

/-- A zero-extended mask clears the higher byte (R95). -/
theorem and_zext16_eq_joinBytes (w : Word) (b : Byte) : w &&& zext16 b = joinBytes 0x00#8 (lowByte w &&& b) :=
  calc w &&& zext16 b
    _ = joinBytes (highByte w) (lowByte w) &&& joinBytes 0x00#8 b := by
      rw [joinBytes_highByte_lowByte, zext16_eq_joinBytes]
    _ = joinBytes 0x00#8 (lowByte w &&& b) := by rw [joinBytes_and, BitVec.and_zero]

/-- A zero-extended operand of `or` keeps the higher byte (R96). -/
theorem or_zext16_eq_joinBytes (w : Word) (b : Byte) :
    w ||| zext16 b = joinBytes (highByte w) (lowByte w ||| b) :=
  calc w ||| zext16 b
    _ = joinBytes (highByte w) (lowByte w) ||| joinBytes 0x00#8 b := by
      rw [joinBytes_highByte_lowByte, zext16_eq_joinBytes]
    _ = joinBytes (highByte w) (lowByte w ||| b) := by rw [joinBytes_or, BitVec.or_zero]

/-- Settles O12: the rows of R57, and one effect for every reading of the other byte, at each reading. -/
theorem lliAndLuiResults : Obligations.LliAndLuiResults := by
  refine ⟨encodedBy_atFields (.lli 0 0), encodedBy_atFields (.lui 0 0), fun rd imm s => ⟨?lli, ?lui⟩⟩
  case lli =>
    obtain ⟨t, ht, hc⟩ := computesInto_of_exec_eq_finish_drawOther (i := .lli rd imm) (s := s) rfl
    refine ⟨t, ht, ?_⟩
    cases hp : s.cfg.lliOther <;> rw [hp] at hc <;> exact hc
  case lui =>
    obtain ⟨t, ht, hc⟩ := computesInto_of_exec_eq_finish_drawOther (i := .lui rd imm) (s := s) rfl
    refine ⟨t, ht, ?_⟩
    cases hp : s.cfg.luiOther <;> rw [hp] at hc <;> exact hc

/-- Settles O13: the rows of R57, the operand of `xori` at each XORI_EXT, and the sum of `addi` on integers. -/
theorem xoriAndAddiResults : Obligations.XoriAndAddiResults := by
  refine ⟨encodedBy_atFields (.xori 0 0), encodedBy_atFields (.addi 0 0), fun rd imm s => ⟨?xori, ?addi⟩⟩
  case xori =>
    obtain ⟨t, ht, hc⟩ := computesInto_of_exec_eq_finish (i := .xori rd imm) (s := s) rfl rfl
    refine ⟨t, ht, ?_⟩
    unfold xoriOperand at hc
    cases hext : s.cfg.xoriExt <;> rw [hext] at hc
    case zero => exact zext16_eq_ofNat imm ▸ hc
    case sign => exact sext16_eq_ofInt imm ▸ hc
  case addi => exact computesInto_of_exec_eq_finish rfl (add_sext16_eq_ofInt_mod _ _)

/-- Settles O14: the rows of R57, and the machine's `and` and `or` with the zero-extended immediate, byte by byte. -/
theorem andiAndOriResults : Obligations.AndiAndOriResults := by
  refine ⟨encodedBy_atFields (.andi 0 0), encodedBy_atFields (.ori 0 0), fun rd imm s => ⟨?andi, ?ori⟩⟩
  case andi => exact computesInto_of_exec_eq_finish rfl (and_zext16_eq_joinBytes _ _)
  case ori => exact computesInto_of_exec_eq_finish rfl (or_zext16_eq_joinBytes _ _)

end Sys2Proof.Machine

namespace Sys2Proof.Machine

/-! ### The results and the faults of the loads and stores (R100 to R104) -/

variable {s : State} {i : Instr} {rd rs : Reg} {ea : Word} {f : Fault}

theorem byteFault_of_unbacked (h : backed s.cfg ea = false) : byteFault s ea = some (.unbackedAccess ea) := by
  simp [byteFault, h]

theorem dataWordFault_of_unbacked (heven : ea.toNat % 2 = 0) (h : backed s.cfg ea = false) :
    dataWordFault s ea = some (.unbackedAccess ea) := by
  simp only [dataWordFault_of_even s heven, wordFault, byteFault_of_unbacked h]

/-- The first address is reported where it is unbacked, so this one only where the first is backed (R124). -/
theorem dataWordFault_of_unbacked_succ (heven : ea.toNat % 2 = 0) (h : backed s.cfg ea = true)
    (h' : backed s.cfg (ea + 1) = false) : dataWordFault s ea = some (.unbackedAccess (ea + 1)) := by
  simp only [dataWordFault_of_even s heven, wordFault, (byteFault_eq_none_iff s ea).mpr h, byteFault_of_unbacked h']

/-- A word access raises what its check raises (R100, R120). -/
theorem exec_wordAccess_of_fault (hi : i = .sw rd rs ∨ i = .lw rd rs)
    (h : dataWordFault s (effectiveAddress s rs) = some f) : exec i s = .fault f := by
  rcases hi with rfl | rfl
  · simp only [exec, execSw, h, raise]
  · simp only [exec, execLw, h, raise]

/-- A byte access has no alignment check: it faults at an unbacked address (R103, R104, R124). -/
theorem exec_byteAccess_of_unbacked (hi : i = .sbu rd rs ∨ i = .lbu rd rs)
    (h : backed s.cfg (effectiveAddress s rs) = false) : exec i s = .fault (.unbackedAccess (effectiveAddress s rs)) := by
  rcases hi with rfl | rfl
  · simp only [exec, execSbu, byteFault_of_unbacked h, raise]
  · simp only [exec, execLbu, byteFault_of_unbacked h, raise]

theorem exec_sbu_of_backed (rd : Reg) (h : backed s.cfg (effectiveAddress s rs) = true) :
    exec (.sbu rd rs) s = .next (advance (writeByte s (effectiveAddress s rs) (lowByte (readReg s rd)))) := by
  simp only [exec, execSbu, (byteFault_eq_none_iff s _).mpr h]

theorem exec_lbu_of_backed (rd : Reg) (h : backed s.cfg (effectiveAddress s rs) = true) :
    exec (.lbu rd rs) s = .next (finish (drawOther s.cfg.lbuOther s) rd
      (joinBytes (otherByte s.cfg.lbuOther s (highByte (readReg s rd))) (readByte s (effectiveAddress s rs)))) := by
  simp only [exec, execLbu, (byteFault_eq_none_iff s _).mpr h]

/-- The second byte of an even address lies at the next number (R35). -/
theorem readByte_succ_of_even (s : State) (h : ea.toNat % 2 = 0) :
    readByte s (ea + 1) = Memory.read s.mem (ea.toNat + 1) := by
  rw [readByte, succ_toNat_of_even h]

/-- Settles O15: the row of R57, what the access check raises, and the two bytes a word write leaves. -/
theorem swStoresTheWord : Obligations.SwStoresTheWord := by
  refine ⟨encodedBy_atFields (.sw 0 0), ?_⟩
  rintro rd rs s _ rfl
  refine ⟨fun hodd => exec_wordAccess_of_fault (.inl rfl) (dataWordFault_of_odd s hodd),
    fun heven h => exec_wordAccess_of_fault (.inl rfl) (dataWordFault_of_unbacked heven h),
    fun heven h h' => exec_wordAccess_of_fault (.inl rfl) (dataWordFault_of_unbacked_succ heven h h'),
    fun heven h h' => ?stored⟩
  have hnofault := (dataWordFault_eq_none_iff s _).mpr ⟨heven, h, h'⟩
  refine ⟨_, exec_sw_eq_next_iff.mpr ⟨hnofault, rfl⟩, rfl, advances_of_pc rfl, ⟨rfl, rfl, rfl⟩,
    sameMemoryOutside_writeWord s _ _, ?_⟩
  have hfirst := readByte_writeWord_first s (effectiveAddress s rs) (readReg s rd)
  have hsecond := readByte_writeWord_second s (effectiveAddress s rs) (readReg s rd)
  rw [readByte_succ_of_even _ heven] at hsecond
  cases horder : s.cfg.byteOrder <;> rw [horder] at hfirst hsecond <;> exact ⟨hfirst, hsecond⟩

/-- Settles O16: the row of R57, what the access check raises, and the word of the two bytes in either order. -/
theorem lwLoadsTheWord : Obligations.LwLoadsTheWord := by
  refine ⟨encodedBy_atFields (.lw 0 0), ?_⟩
  rintro rd rs s _ rfl
  refine ⟨fun hodd => exec_wordAccess_of_fault (.inr rfl) (dataWordFault_of_odd s hodd),
    fun heven h => exec_wordAccess_of_fault (.inr rfl) (dataWordFault_of_unbacked heven h),
    fun heven h h' => exec_wordAccess_of_fault (.inr rfl) (dataWordFault_of_unbacked_succ heven h h'),
    fun heven h h' => ?loaded⟩
  have hnofault := (dataWordFault_eq_none_iff s _).mpr ⟨heven, h, h'⟩
  obtain ⟨t, ht, hc⟩ := computesInto_of_exec_eq_finish (exec_lw_of_no_fault rd hnofault) rfl
  refine ⟨t, ht, ?_⟩
  rw [readWord, readByte_succ_of_even s heven] at hc
  cases horder : s.cfg.byteOrder <;> rw [horder] at hc <;> exact hc

/-- Settles O17: the row of R57, the fault of an unbacked byte, and the one byte a byte write leaves. -/
theorem sbuStoresTheByte : Obligations.SbuStoresTheByte := by
  refine ⟨encodedBy_atFields (.sbu 0 0), ?_⟩
  rintro rd rs s _ rfl
  refine ⟨exec_byteAccess_of_unbacked (.inl rfl), fun h => ?stored⟩
  exact ⟨_, exec_sbu_of_backed rd h, rfl, advances_of_pc rfl, ⟨rfl, rfl, rfl⟩, sameMemoryOutside_writeByte s _ _,
    (read_writeByte s _ _ _).trans (if_pos rfl)⟩

/-- Settles O18: the row of R57, the fault of an unbacked byte, and one effect for every reading of the higher byte, at
each reading. -/
theorem lbuLoadsTheByte : Obligations.LbuLoadsTheByte := by
  refine ⟨encodedBy_atFields (.lbu 0 0), ?_⟩
  rintro rd rs s _ rfl
  refine ⟨exec_byteAccess_of_unbacked (.inr rfl), fun h => ?loaded⟩
  obtain ⟨t, ht, hc⟩ := computesInto_of_exec_eq_finish_drawOther (exec_lbu_of_backed rd h)
  refine ⟨t, ht, ?_⟩
  cases hp : s.cfg.lbuOther <;> rw [hp] at hc <;> exact hc

end Sys2Proof.Machine

namespace Sys2Proof.Machine

/-! ### The target of a control transfer (R110) -/

variable {s t : State} {i : Instr} {imm : Byte}

theorem branchBaseValue_toNat (c : Config) : ((branchBaseValue c).toNat : Int) = branchBaseInt c := by
  unfold branchBaseValue branchBaseInt
  cases c.branchBase <;> rfl

theorem branchScaleValue_toNat (c : Config) : ((branchScaleValue c).toNat : Int) = branchScaleInt c := by
  unfold branchScaleValue branchScaleInt
  cases c.branchScale <;> rfl

/-- The machine's target is the word of the sum of integers (R110). -/
theorem branchTarget_eq_ofInt (s : State) (imm : Byte) :
    branchTarget s imm =
      BitVec.ofInt 16 ((s.pc.toNat : Int) + branchBaseInt s.cfg + branchScaleInt s.cfg * imm.toInt) := by
  simp only [BitVec.ofInt_add, BitVec.ofInt_mul, ← branchBaseValue_toNat, ← branchScaleValue_toNat, ← word_eq_ofInt,
    ← sext16_eq_ofInt, branchTarget]

theorem branchTarget_toNat (s : State) (imm : Byte) :
    ((branchTarget s imm).toNat : Int) =
      ((s.pc.toNat : Int) + branchBaseInt s.cfg + branchScaleInt s.cfg * imm.toInt) % 65536 := by
  rw [branchTarget_eq_ofInt, BitVec.toNat_ofInt]
  exact Int.toNat_of_nonneg (Int.emod_nonneg _ (by decide))

theorem branchBaseInt_even (c : Config) : branchBaseInt c % 2 = 0 := by
  unfold branchBaseInt
  cases c.branchBase <;> rfl

/-- Steps of two bytes from an even address, with either BRANCH_BASE, reach even addresses only (D6). -/
theorem branchTarget_even (hscale : s.cfg.branchScale = .two) (heven : s.pc.toNat % 2 = 0) (imm : Byte) :
    (branchTarget s imm).toNat % 2 = 0 := by
  have htarget := branchTarget_toNat s imm
  have hbase := branchBaseInt_even s.cfg
  have htwo : branchScaleInt s.cfg = 2 := by rw [branchScaleInt, hscale]
  rw [htwo] at htarget
  omega

theorem pc_even_of_advances (h : Advances s t) (heven : s.pc.toNat % 2 = 0) : t.pc.toNat % 2 = 0 := by
  unfold Advances at h
  omega

/-- Settles O45: the instruction the step executed keeps the parameters, and it advanced `pc` by 2 or took a transfer to
an even target. -/
theorem pcStaysEvenAtScaleTwo : Obligations.PcStaysEvenAtScaleTwo := by
  rintro s t ⟨hscale, heven⟩ h
  obtain ⟨-, i, -, hexec⟩ := step_next_cases h
  obtain ⟨hcfg, -⟩ := exec_keeps_parameters_and_status hexec
  obtain ⟨hadvances, htransfers⟩ := pcAdvancesUnlessTransferred i s t hexec
  refine ⟨hcfg ▸ hscale, ?_⟩
  by_cases htaken : TransferTaken i s
  · obtain ⟨imm, -, hpc⟩ := htransfers htaken
    exact hpc ▸ branchTarget_even hscale heven imm
  · exact pc_even_of_advances (hadvances htaken) heven

/-! ### The control transfers (R111 to R115) -/

/-- No control transfer faults in its own step (R116). -/
theorem exec_completes_of_transferImmediate (h : transferImmediate i = some imm) (s : State) :
    ∃ t, exec i s = .next t := by
  cases i
  case beqz | bnez | bmi | bpl | j => exact ⟨_, rfl⟩
  all_goals cases h

/-- A completed control transfer changes `pc` alone. -/
theorem onlyPcChanges_of_transferImmediate (h : transferImmediate i = some imm) (hexec : exec i s = .next t) :
    OnlyPcChanges s t := by
  obtain ⟨p, rd, v, -, hnone, -, -⟩ | ⟨rd, rs, rfl, -, -⟩ | ⟨rd, rs, rfl, -, -⟩ | ⟨rfl, -⟩ | ⟨b, imm', -, -, -, rfl⟩ :=
    exec_next_cases hexec
  · rw [hnone] at h
    cases h
  · cases h
  · cases h
  · cases h
  · exact branch_onlyPcChanges s b imm'

/-- A control transfer goes to its target when taken and advances otherwise, and changes nothing else (R15, R110). -/
theorem exec_transfer (h : transferImmediate i = some imm) (s : State) :
    ∃ t, exec i s = .next t ∧ OnlyPcChanges s t ∧ (TransferTaken i s → t.pc = branchTarget s imm) ∧
      (¬ TransferTaken i s → Advances s t) := by
  obtain ⟨t, hexec⟩ := exec_completes_of_transferImmediate h s
  obtain ⟨hadvances, htransfers⟩ := pcAdvancesUnlessTransferred i s t hexec
  refine ⟨t, hexec, onlyPcChanges_of_transferImmediate h hexec, fun htaken => ?_, hadvances⟩
  obtain ⟨imm', himm', hpc⟩ := htransfers htaken
  cases h.symm.trans himm'
  exact hpc

/-- Settles O22: the rows of R57, and each branch goes to its target or advances as its test says. -/
theorem beqzAndBnezBranch : Obligations.BeqzAndBnezBranch := by
  refine ⟨encodedBy_atFields (.beqz 0 0), encodedBy_atFields (.bnez 0 0), fun rd imm s => ⟨?beqz, ?bnez⟩⟩
  case beqz => exact exec_transfer (i := .beqz rd imm) rfl s
  case bnez =>
    obtain ⟨t, hexec, honly, htaken, hadvances⟩ := exec_transfer (i := .bnez rd imm) rfl s
    exact ⟨t, hexec, honly, htaken, fun hzero => hadvances (not_not.mpr hzero)⟩

/-- Settles O23: the rows of R57, and each branch goes to its target or advances as the sign says. -/
theorem bmiAndBplBranch : Obligations.BmiAndBplBranch := by
  refine ⟨encodedBy_atFields (.bmi 0 0), encodedBy_atFields (.bpl 0 0), fun rd imm s => ⟨?bmi, ?bpl⟩⟩
  case bmi =>
    obtain ⟨t, hexec, honly, htaken, hadvances⟩ := exec_transfer (i := .bmi rd imm) rfl s
    exact ⟨t, hexec, honly, htaken, fun hplus => hadvances (not_lt.mpr hplus)⟩
  case bpl =>
    obtain ⟨t, hexec, honly, htaken, hadvances⟩ := exec_transfer (i := .bpl rd imm) rfl s
    exact ⟨t, hexec, honly, htaken, fun hminus => hadvances (not_le.mpr hminus)⟩

/-- Settles O24: the row of R57 leaves `ddd` out, the canonical word has zeros there, and `j` is always taken. -/
theorem jumpIsUnconditional : Obligations.JumpIsUnconditional := by
  refine ⟨encodedBy_atFields (.j 0), fun imm s => ⟨encodeImmediate_toNat 24#5 0 imm, ?_⟩⟩
  obtain ⟨t, hexec, honly, htaken, -⟩ := exec_transfer (i := .j imm) rfl s
  exact ⟨t, hexec, honly, htaken trivial⟩

/-- Settles O25: a taken transfer goes to the machine's target, which is the sum of the integers modulo 2^16. -/
theorem branchTargetFormula : Obligations.BranchTargetFormula := by
  intro i imm s h
  obtain ⟨t, hexec, -, htaken, -⟩ := exec_transfer h s
  exact ⟨t, hexec, fun hyes => htaken hyes ▸ branchTarget_toNat s imm⟩

/-! ### Odd targets, and the immediate that reaches a target (R116) -/

/-- The alignment of `pc` is the first check of a fetch (R123, R125). -/
theorem fetchInstr_of_odd (h : s.pc.toNat % 2 = 1) : fetchInstr s = .error (.fetchMisaligned s.pc) := by
  rw [fetchInstr_eq, fetchFault, (isEven_eq_false_iff s.pc).mpr h]
  rfl

theorem branchScaleInt_ne_zero (c : Config) : branchScaleInt c ≠ 0 := by
  unfold branchScaleInt
  cases c.branchScale <;> decide

/-- The distance of R116: from the instruction at `a`, as integers, to `u`, less BRANCH_BASE. -/
def branchDistance (c : Config) (a u : Word) : Int := (u.toNat : Int) - (a.toNat : Int) - branchBaseInt c

theorem branchImmediate_eq (c : Config) (a u : Word) :
    branchImmediate c a u =
      if branchDistance c a u % branchScaleInt c = 0 ∧ -128 ≤ branchDistance c a u / branchScaleInt c ∧
        branchDistance c a u / branchScaleInt c ≤ 127 then
        some (BitVec.ofInt 8 (branchDistance c a u / branchScaleInt c))
      else none := by
  rw [branchDistance, ← branchBaseValue_toNat, ← branchScaleValue_toNat, branchImmediate]

/-- Where the distance is a multiple of BRANCH_SCALE, the quotient is the immediate if it fits the field (R116). -/
theorem branchImmediate_of_quotient {c : Config} {a u : Word} {q : Int}
    (h : branchDistance c a u = branchScaleInt c * q) :
    branchImmediate c a u = if -128 ≤ q ∧ q ≤ 127 then some (BitVec.ofInt 8 q) else none := by
  rw [branchImmediate_eq, h, Int.mul_emod_right, Int.mul_ediv_cancel_left _ (branchScaleInt_ne_zero c)]
  simp only [true_and]

theorem branchImmediate_of_no_quotient {c : Config} {a u : Word}
    (h : ∀ q, branchDistance c a u ≠ branchScaleInt c * q) : branchImmediate c a u = none := by
  rw [branchImmediate_eq]
  refine if_neg fun ⟨hmultiple, _⟩ => ?_
  exact h _ (Int.mul_ediv_cancel' (Int.dvd_of_emod_eq_zero hmultiple)).symm

/-- An immediate in the range of the field reaches the address at its distance (R110, R116). -/
theorem branchTarget_ofInt {u : Word} {q : Int} (h : branchDistance s.cfg s.pc u = branchScaleInt s.cfg * q)
    (hq : -128 ≤ q ∧ q ≤ 127) : branchTarget s (BitVec.ofInt 8 q) = u := by
  obtain ⟨hlow, hhigh⟩ := hq
  have hfield : (BitVec.ofInt 8 q).toInt = q := BitVec.toInt_ofInt_eq_self (by decide) hlow (by omega)
  have hsum : (s.pc.toNat : Int) + branchBaseInt s.cfg + branchScaleInt s.cfg * q = u.toNat := by
    rw [← h, branchDistance]
    ring
  rw [branchTarget_eq_ofInt, hfield, hsum, ← word_eq_ofInt]

/-- Settles O26: a transfer checks no alignment, so an odd target is left to the next fetch; and the immediate is the
quotient of the distance where there is one that fits. -/
theorem oddTargetsFaultLaterAndImmediatesReach : Obligations.OddTargetsFaultLaterAndImmediatesReach := by
  refine ⟨fun i imm s h hnone => ?odd, fun s u q hq => ⟨fun hfits => ?reached, fun hfits => ?tooFar⟩,
    fun s u hq => branchImmediate_of_no_quotient hq⟩
  case odd =>
    obtain ⟨t, hexec, -, htaken, -⟩ := exec_transfer h s
    obtain ⟨-, hfault⟩ := exec_keeps_parameters_and_status hexec
    refine ⟨t, hexec, fun hyes hodd => ?_⟩
    rw [← htaken hyes] at hodd ⊢
    exact ⟨rfl, step_of_fetch_fault (hfault.trans hnone) (fetchInstr_of_odd hodd)⟩
  case reached => exact ⟨(branchImmediate_of_quotient hq).trans (if_pos hfits), branchTarget_ofInt hq hfits⟩
  case tooFar => exact (branchImmediate_of_quotient hq).trans (if_neg hfits)

end Sys2Proof.Machine

namespace Sys2Proof.Machine

/-! ### The faults of a step, in their fixed order (R125) -/

variable {s : State} {i : Instr} {rd rs : Reg} {f : Fault}

/-- The first of several addresses is reported where it is unbacked, else what the others give (R124). -/
theorem firstUnbacked_cons (s : State) (a : Word) (as : List Word) :
    firstUnbacked s.cfg (a :: as) = (byteFault s a).or (firstUnbacked s.cfg as) := by
  cases h : backed s.cfg a <;> simp [firstUnbacked, byteFault, h]

theorem firstUnbacked_singleton (s : State) (a : Word) : firstUnbacked s.cfg [a] = byteFault s a :=
  (firstUnbacked_cons s a []).trans Option.or_none

theorem firstUnbacked_pair (s : State) (a : Word) : firstUnbacked s.cfg [a, a + 1] = wordFault s a := by
  rw [firstUnbacked_cons, firstUnbacked_singleton, wordFault]
  cases byteFault s a <;> rfl

/-- Checks (4) and (5) for a word access, alignment first, are the machine's own check (R38, R100). -/
theorem dataFault_wordAccess (hi : i = .sw rd rs ∨ i = .lw rd rs) :
    dataFault i s = dataWordFault s (effectiveAddress s rs) := by
  have hchecks : dataFault i s =
      if (effectiveAddress s rs).toNat % 2 = 1 then some (.misalignedAccess (effectiveAddress s rs))
      else firstUnbacked s.cfg [effectiveAddress s rs, effectiveAddress s rs + 1] := by
    rcases hi with rfl | rfl <;> rfl
  rw [hchecks, firstUnbacked_pair]
  split
  · next hodd => exact (dataWordFault_of_odd s hodd).symm
  · next hodd => exact (dataWordFault_of_even s (Nat.mod_two_ne_one.mp hodd)).symm

/-- A byte access has check (5) alone (R103, R104). -/
theorem dataFault_byteAccess (hi : i = .sbu rd rs ∨ i = .lbu rd rs) :
    dataFault i s = byteFault s (effectiveAddress s rs) := by
  rw [← firstUnbacked_singleton]
  rcases hi with rfl | rfl <;> rfl

/-- Checks (1) and (2) are the machine's own check of a fetch, alignment first (R123, R124). -/
theorem fetchFault_eq (s : State) :
    fetchFault s =
      if s.pc.toNat % 2 = 1 then some (.fetchMisaligned s.pc) else firstUnbacked s.cfg [s.pc, s.pc + 1] := by
  rw [fetchFault, firstUnbacked_pair]
  split
  · next heven => rw [if_neg (by have := (isEven_iff s.pc).mp heven; omega)]
  · next hodd => rw [if_pos ((isEven_eq_false_iff s.pc).mp (Bool.eq_false_of_not_eq_true hodd))]

/-- The five checks are those of the fetch, then those of the data access of the fetched instruction. -/
theorem expectedFault_eq (s : State) :
    expectedFault s =
      match fetchInstr s with
      | .error f => some f
      | .ok i => dataFault i s := by
  rw [fetchInstr_eq, fetchFault_eq, expectedFault, fetchWord]
  split
  · rfl
  · cases firstUnbacked s.cfg [s.pc, s.pc + 1] with
    | some f => rfl
    | none => cases decodeWord (readWord s s.pc) <;> rfl

/-- The result `o` reports the fault `e`, or completes where there is none. -/
def Reports (e : Option Fault) (o : Result) : Prop :=
  match e with
  | some f => o = .fault f
  | none => ∃ t, o = .next t

theorem Reports.eq_fault_iff {e : Option Fault} {o : Result} (h : Reports e o) : o = .fault f ↔ e = some f := by
  cases e with
  | some g =>
    cases (show o = .fault g from h)
    simp
  | none =>
    obtain ⟨t, rfl⟩ := h
    simp

theorem Reports.next_or_fault {e : Option Fault} {o : Result} (h : Reports e o) :
    (∃ t, o = .next t) ∨ ∃ f, o = .fault f := by
  cases e with
  | some g => exact .inr ⟨g, h⟩
  | none => exact .inl h

/-- An instruction reports what the checks of its data access give; those without an access complete (R125). -/
theorem exec_reports (i : Instr) (s : State) : Reports (dataFault i s) (exec i s) := by
  cases i
  case sw rd rs =>
    rw [dataFault_wordAccess (.inl rfl)]
    cases h : dataWordFault s (effectiveAddress s rs) with
    | some f => exact exec_wordAccess_of_fault (.inl rfl) h
    | none => exact ⟨_, exec_sw_eq_next_iff.mpr ⟨h, rfl⟩⟩
  case lw rd rs =>
    rw [dataFault_wordAccess (.inr rfl)]
    cases h : dataWordFault s (effectiveAddress s rs) with
    | some f => exact exec_wordAccess_of_fault (.inr rfl) h
    | none => exact ⟨_, exec_lw_of_no_fault rd h⟩
  case sbu rd rs =>
    rw [dataFault_byteAccess (.inl rfl)]
    cases h : backed s.cfg (effectiveAddress s rs) with
    | false =>
      rw [byteFault_of_unbacked h]
      exact exec_byteAccess_of_unbacked (.inl rfl) h
    | true =>
      rw [(byteFault_eq_none_iff s _).mpr h]
      exact ⟨_, exec_sbu_of_backed rd h⟩
  case lbu rd rs =>
    rw [dataFault_byteAccess (.inr rfl)]
    cases h : backed s.cfg (effectiveAddress s rs) with
    | false =>
      rw [byteFault_of_unbacked h]
      exact exec_byteAccess_of_unbacked (.inr rfl) h
    | true =>
      rw [(byteFault_eq_none_iff s _).mpr h]
      exact ⟨_, exec_lbu_of_backed rd h⟩
  all_goals exact ⟨_, rfl⟩

/-- A step of a running machine reports what the five checks give (R125). -/
theorem step_reports (hnone : s.fault = none) : Reports (expectedFault s) (step s) := by
  cases hfetch : fetchInstr s with
  | error f =>
    rw [expectedFault_eq, hfetch]
    exact step_of_fetch_fault hnone hfetch
  | ok i =>
    rw [expectedFault_eq, hfetch, step_of_fetch hnone hfetch]
    exact exec_reports i s

/-- Settles O28: the step reports what the five checks give (`step_reports`), and a fault is recorded alone. -/
theorem faultsFollowTheFixedOrder : Obligations.FaultsFollowTheFixedOrder := by
  intro s hnone
  have hreports := step_reports hnone
  refine ⟨fun f => hreports.eq_fault_iff, fun f h => ?_, fun h => ?_⟩
  · exact tick_of_step_fault (hreports.eq_fault_iff.mpr h)
  · rwa [h] at hreports

/-! ### A faulted machine stands still (R21, R120) -/

/-- A faulted state answers the fault it holds (assumption log 15). -/
theorem step_of_faulted (h : s.fault = some f) : step s = .fault f := by
  simp only [step, h, raise]

theorem tick_of_faulted (h : s.fault = some f) : tick s = s := by
  rw [tick_of_step_fault (step_of_faulted h), ← h]

theorem ticks_of_tick_eq (h : tick s = s) (n : Nat) : ticks n s = s := by
  induction n with
  | zero => rfl
  | succ n ih => rw [ticks, h, ih]

theorem not_isFixedPoint_of_faulted (h : s.fault = some f) : ¬ IsFixedPoint s := by
  rintro ⟨hnone, -⟩
  rw [hnone] at h
  cases h

/-- Settles O29: the fault is recorded alone (`tick_of_step_fault`), and the state it is recorded in stands still. -/
theorem faultsAreTerminalAndPrecise : Obligations.FaultsAreTerminalAndPrecise := by
  intro s f h
  have htick := tick_of_step_fault h
  have hfaulted : (tick s).fault = some f := by rw [htick]
  exact ⟨fun _ => htick, hfaulted, step_of_faulted hfaulted, ticks_of_tick_eq (tick_of_faulted hfaulted),
    not_isFixedPoint_of_faulted hfaulted⟩

/-- Settles O30: a running machine completes or faults as the five checks say, and a faulted one answers its fault. -/
theorem stepNeverRefuses : Obligations.StepNeverRefuses := by
  intro s
  cases h : s.fault with
  | some f => exact .inr ⟨f, step_of_faulted h⟩
  | none => exact (step_reports h).next_or_fault

end Sys2Proof.Machine

namespace Sys2Proof.Machine

/-! ### The step onto the word at `pc` (R146, R143) -/

variable {s t : State} {i : Instr} {imm : Byte}

/-- The decoder on two bytes answers only what their word decodes to (R36, R56). -/
theorem decodeWord_of_decodeBytes_pair {o : ByteOrder} {b0 b1 : Byte} {rest : List Byte}
    (h : decodeBytes o [b0, b1] = .ok (i, rest)) : decodeWord (wordOfBytes o b0 b1) = some i := by
  rw [decodeBytes_pair] at h
  cases hdecode : decodeWord (wordOfBytes o b0 b1) with
  | none =>
    rw [hdecode] at h
    cases h
  | some k =>
    rw [hdecode] at h
    cases h
    rfl

/-- Settles O27: the two bytes at `pc` are the word a fetch decodes, and nothing else stands before the effect
(`step_of_fetch`). -/
theorem stepRunsTheDecodedInstruction : Obligations.StepRunsTheDecodedInstruction := by
  intro s i rest hnone heven hbacked hbacked' hdecode
  exact step_of_fetch hnone
    (fetchInstr_ok_iff.mpr ⟨heven, hbacked, hbacked', decodeWord_of_decodeBytes_pair hdecode⟩)

/-- The byte order in which the table's decoder lays its word does not matter (assumption log 24). -/
theorem decodeTableWord_eq_decodeWord (nbits w : Nat) :
    decodeTableWord nbits w = decodeWord (BitVec.ofNat 16 (w % 2 ^ nbits)) := by
  simp only [decodeTableWord, decodeBytes_pair, wordOfBytes_split]
  cases decodeWord (BitVec.ofNat 16 (w % 2 ^ nbits)) <;> rfl

/-- A fetch reads the word the host has placed at `pc`, in either byte order (R143, R36). -/
theorem fetchWord_withFetchWord (s : State) (nbits w : Nat) :
    fetchWord (s.withFetchWord nbits w) = BitVec.ofNat 16 (w % 2 ^ nbits) :=
  readWord_writeWord s s.pc _

/-- Settles O31: placing the word leaves status, `pc` and map, so that the next fetch finds that word
(`fetchWord_withFetchWord`) and runs what it decodes to, or faults. -/
theorem placedWordRunsNext : Obligations.PlacedWordRunsNext := by
  intro s w hw hnone heven hbacked hbacked'
  have hmod : w % 2 ^ 16 = w := Nat.mod_eq_of_lt hw
  have hword : fetchWord (s.withFetchWord 16 w) = BitVec.ofNat 16 w := by rw [fetchWord_withFetchWord, hmod]
  rw [decodeTableWord_eq_decodeWord, hmod, ← hword]
  cases hdecode : decodeWord (fetchWord (s.withFetchWord 16 w)) with
  | some i => exact step_of_fetch hnone (fetchInstr_ok_iff.mpr ⟨heven, hbacked, hbacked', hdecode⟩)
  | none => exact step_of_fetch_fault hnone (fetchInstr_of_illegal heven hbacked hbacked' hdecode)

/-! ### The fixed points of the step (R144) -/

theorem not_advances_self (s : State) : ¬ Advances s s := by
  unfold Advances
  omega

/-- A transfer to its own address changes nothing (R110). -/
theorem jump_eq_self (h : branchTarget s imm = s.pc) : jump s imm = s := by
  rw [jump, h, State.setPc]

/-- A taken control transfer is the jump to its target (R15, R110). -/
theorem exec_of_transferTaken (himm : transferImmediate i = some imm) (htaken : TransferTaken i s) :
    exec i s = .next (jump s imm) := by
  obtain ⟨t, hexec⟩ := exec_completes_of_transferImmediate himm s
  obtain ⟨p, rd, v, -, -, hnot, -⟩ | ⟨rd, rs, rfl, -, -⟩ | ⟨rd, rs, rfl, -, -⟩ | ⟨rfl, -⟩ |
    ⟨b, imm', himm', -, hb, rfl⟩ := exec_next_cases hexec
  · exact absurd htaken hnot
  · cases himm
  · cases himm
  · cases himm
  · cases himm.symm.trans himm'
    rw [hexec, hb.mpr htaken, branch, if_pos rfl]

/-- Settles O36: at a fixed point `pc` did not advance, so the instruction was a taken transfer
(`pcAdvancesUnlessTransferred`); and a taken transfer to its own address changes nothing. -/
theorem fixedPointsAreSelfTransfers : Obligations.FixedPointsAreSelfTransfers := by
  refine fun s => ⟨fun ⟨_, hstep⟩ => ?_, fun ⟨hnone, i, imm, hfetch, himm, htaken, hself⟩ => ⟨hnone, ?_⟩⟩
  · obtain ⟨hnone, i, hfetch, hexec⟩ := step_next_cases hstep
    obtain ⟨hadvances, htransfers⟩ := pcAdvancesUnlessTransferred i s s hexec
    have htaken : TransferTaken i s := by
      by_contra hnot
      exact not_advances_self s (hadvances hnot)
    obtain ⟨imm, himm, hpc⟩ := htransfers htaken
    exact ⟨hnone, i, imm, hfetch, himm, htaken, hpc.symm⟩
  · rw [step_of_fetch hnone hfetch, exec_of_transferTaken himm htaken, jump_eq_self hself]

/-! ### The end of a run (R144, R133) -/

theorem tick_of_isFixedPoint (h : IsFixedPoint s) : tick s = s := by
  obtain ⟨-, hstep⟩ := h
  simp only [tick, hstep]

theorem ticks_add (m n : Nat) (s : State) : ticks (m + n) s = ticks n (ticks m s) := by
  induction m generalizing s with
  | zero => rw [Nat.zero_add, ticks]
  | succ m ih => rw [Nat.succ_add, ticks, ticks, ih]

/-- A run stays where it stands still. -/
theorem ticks_eq_of_tick_eq {m n : Nat} (h : tick (ticks m s) = ticks m s) (hmn : m ≤ n) :
    ticks n s = ticks m s := by
  obtain ⟨k, rfl⟩ := Nat.exists_eq_add_of_le hmn
  rw [ticks_add, ticks_of_tick_eq h]

/-- Settles O37: of two ends the run stays at the earlier one, so it is the later one too; and a state with a fault,
where the run would stay as well, is no fixed point. -/
theorem theEndOfARunIsUniqueAndSafe : Obligations.TheEndOfARunIsUniqueAndSafe := by
  rintro s _ ⟨n, rfl, hend⟩
  have hstays := tick_of_isFixedPoint hend
  refine ⟨?unique, fun _ k _ => ?safe⟩
  case unique =>
    rintro _ ⟨m, rfl, hend'⟩
    rcases le_total n m with hnm | hmn
    · exact ticks_eq_of_tick_eq hstays hnm
    · exact (ticks_eq_of_tick_eq (tick_of_isFixedPoint hend') hmn).symm
  case safe =>
    rcases le_total n k with hnk | hkn
    · rw [ticks_eq_of_tick_eq hstays hnk]
      exact hend.1
    · by_contra hfault
      obtain ⟨f, hf⟩ := Option.ne_none_iff_exists'.mp hfault
      rw [ticks_eq_of_tick_eq (tick_of_faulted hf) hkn] at hend
      exact not_isFixedPoint_of_faulted hf hend

end Sys2Proof.Machine

namespace Sys2Proof.Machine

/-! ### What laying cells into memory leaves (R140, R143) -/

variable {s : State}

@[simp] theorem writeCells_cfg (s : State) (cells : List (Word × Byte)) : (writeCells s cells).cfg = s.cfg := by
  induction cells generalizing s with
  | nil => rfl
  | cons c rest ih => exact ih (writeByte s c.1 c.2)

@[simp] theorem writeCells_regs (s : State) (cells : List (Word × Byte)) : (writeCells s cells).regs = s.regs := by
  induction cells generalizing s with
  | nil => rfl
  | cons c rest ih => exact ih (writeByte s c.1 c.2)

theorem writeCells_memoryCanonical (cells : List (Word × Byte)) (h : MemoryCanonical s) :
    MemoryCanonical (writeCells s cells) := by
  induction cells generalizing s with
  | nil => exact h
  | cons c rest ih => exact ih (writeByte_mem_wf s h)

/-- Settles O43: the empty memory of the reset state is canonical, and every byte the host writes keeps it so. -/
theorem launchMemoryIsCanonical : Obligations.LaunchMemoryIsCanonical :=
  ⟨Memory.nil_wf, fun l => writeCells_memoryCanonical l.cells Memory.nil_wf⟩

theorem readByte_writeCells_of_notMem {cells : List (Word × Byte)} {a : Word} (h : a ∉ cells.map Prod.fst) :
    readByte (writeCells s cells) a = readByte s a := by
  induction cells generalizing s with
  | nil => rfl
  | cons c rest ih =>
    obtain ⟨hne, hrest⟩ := List.ne_and_not_mem_of_not_mem_cons h
    rw [writeCells, ih hrest, readByte_writeByte, if_neg hne]

/-- A byte that no later cell overwrites reads as its value (R34). -/
theorem readByte_writeCells_of_mem {cells : List (Word × Byte)} (hnodup : (cells.map Prod.fst).Nodup)
    {c : Word × Byte} (hc : c ∈ cells) : readByte (writeCells s cells) c.1 = c.2 := by
  induction cells generalizing s with
  | nil => cases hc
  | cons d rest ih =>
    obtain ⟨hd, hrest⟩ := List.nodup_cons.mp hnodup
    rcases List.mem_cons.mp hc with rfl | hc
    · rw [writeCells, readByte_writeCells_of_notMem hd, readByte_writeByte, if_pos rfl]
    · exact ih hrest hc

/-- Settles O47: the cells change memory alone, and each byte reads as what was last written to it. -/
theorem launchHoldsTheImage : Obligations.LaunchHoldsTheImage :=
  fun l => ⟨writeCells_regs _ l.cells, writeCells_cfg _ l.cells,
    fun hnodup _ hc => readByte_writeCells_of_mem hnodup hc⟩

/-! ### The words of a program image (R143) -/

/-- The cells of an image lie within its length of its start, modulo 2^16. -/
theorem toNat_sub_lt_of_mem_wordCells {o : ByteOrder} {a b : Word} {ws : List Word}
    (h : b ∈ (wordCells o a ws).map Prod.fst) : (b - a).toNat < 2 * ws.length := by
  induction ws generalizing a with
  | nil => cases h
  | cons w ws ih =>
    simp only [wordCells, List.map_cons, List.mem_cons] at h
    rw [List.length_cons]
    rcases h with rfl | rfl | h
    · rw [sub_self]
      change 0 < _
      omega
    · rw [add_sub_cancel_left]
      change 1 < _
      omega
    · have htail := ih h
      rw [← sub_sub] at htail
      generalize b - a = d at htail ⊢
      bv_omega

/-- The two bytes below a short image are no part of it: it does not wrap round onto them (R6, R143). -/
theorem notMem_wordCells_add_two (o : ByteOrder) {a b : Word} {ws : List Word} (hb : b = a ∨ b = a + 1)
    (hlen : ws.length < 32768) : b ∉ (wordCells o (a + 2) ws).map Prod.fst := by
  intro hmem
  have hlt := toNat_sub_lt_of_mem_wordCells hmem
  rcases hb with rfl | rfl
  · rw [sub_add_cancel_left] at hlt
    change 65534 < _ at hlt
    omega
  · rw [add_sub_add_left_eq_sub] at hlt
    change 65535 < _ at hlt
    omega

theorem readWord_writeCells_of_notMem {cells : List (Word × Byte)} {a : Word} (h : a ∉ cells.map Prod.fst)
    (h' : a + 1 ∉ cells.map Prod.fst) : readWord (writeCells s cells) a = readWord s a := by
  rw [readWord, writeCells_cfg, readByte_writeCells_of_notMem h, readByte_writeCells_of_notMem h', readWord]

/-- An image is laid word by word, each as `MemWrite(a, 2, W)` lays it (R143). -/
theorem writeCells_wordCells_cons (s : State) (a w : Word) (ws : List Word) :
    writeCells s (wordCells s.cfg.byteOrder a (w :: ws)) =
      writeCells (writeWord s a w) (wordCells (writeWord s a w).cfg.byteOrder (a + 2) ws) := rfl

/-- Each word of an image that fits the address space stays as it was laid, no later one overwriting it. -/
theorem readWord_writeCells_wordCells {a : Word} {ws : List Word} {n : Nat} (h : n < ws.length)
    (hlen : ws.length ≤ 32768) :
    readWord (writeCells s (wordCells s.cfg.byteOrder a ws)) (a + BitVec.ofNat 16 (2 * n)) = ws[n] := by
  induction ws generalizing s a n with
  | nil => cases h
  | cons w ws ih =>
    rw [List.length_cons] at hlen
    rw [writeCells_wordCells_cons]
    cases n with
    | zero =>
      have hstart : a + BitVec.ofNat 16 (2 * 0) = a := add_zero a
      rw [hstart, readWord_writeCells_of_notMem (notMem_wordCells_add_two _ (.inl rfl) hlen)
        (notMem_wordCells_add_two _ (.inr rfl) hlen), readWord_writeWord, List.getElem_cons_zero]
    | succ n =>
      have hnext : a + BitVec.ofNat 16 (2 * (n + 1)) = a + 2 + BitVec.ofNat 16 (2 * n) := by
        rw [Nat.mul_succ, Nat.add_comm, BitVec.ofNat_add, ← add_assoc]
        rfl
      rw [hnext, List.getElem_cons_succ]
      exact ih (Nat.lt_of_succ_lt_succ h) (Nat.le_of_succ_le hlen)

/-- Settles O48: a launch lays the image from RESET_PC on, and its words stay as they were laid. -/
theorem imageWordsAreFetched : Obligations.ImageWordsAreFetched :=
  fun _ _ _ _ h hlen => readWord_writeCells_wordCells h hlen

end Sys2Proof.Machine

namespace Sys2Proof.Machine

/-! ### The value a sequence leaves in one register (R142) -/

variable {c : Config} {s t : State} {i : Instr} {is : List Instr} {p : OtherByte} {rd rs : Reg} {u u' v w : Word}

/-- From every state with parameters `c` and `v` in `x[rd]` (zero where it is hardwired), the sequence leaves `w`
there. -/
def Turns (c : Config) (rd : Reg) (is : List Instr) (v w : Word) : Prop :=
  ∀ s, s.cfg = c → readReg s rd = (if hardwired c rd then 0 else v) → Leaves is s rd w

theorem Turns.nil (h : v = w) : Turns c rd [] v w := by
  subst h
  rintro s rfl hread
  exact congrArg some hread

/-- A hardwired register holds zero whatever the values are called (R12). -/
theorem Turns.of_hardwired (hwired : hardwired c rd = true) (h : Turns c rd is u w) : Turns c rd is v w := by
  intro s hcfg hread
  exact h s hcfg (by simpa [hwired] using hread)

theorem valueAfter_cons_of_next (h : exec i s = .next t) : valueAfter (i :: is) s rd = valueAfter is t rd := by
  simp only [valueAfter, execAll_cons_of_next h]

/-- A sequence goes on from what its first instruction writes; what a hardwired register discards does not matter. -/
theorem leaves_cons (hexec : exec i s = .next (finish (drawOther p s) rd u'))
    (hu : hardwired s.cfg rd = false → u' = u) (h : Turns s.cfg rd is u w) : Leaves (i :: is) s rd w := by
  have hturns : Turns s.cfg rd is u' w := by
    cases hwired : hardwired s.cfg rd with
    | true => exact h.of_hardwired hwired
    | false => exact hu hwired ▸ h
  have hcfg : (finish (drawOther p s) rd u').cfg = s.cfg := by simp
  have hleaves := hturns _ hcfg (by simp [readReg_finish])
  rw [Leaves, hcfg] at hleaves
  rw [Leaves, valueAfter_cons_of_next hexec, hleaves]

theorem leaves_of_turns (h : Turns s.cfg rd is (readReg s rd) w) : Leaves is s rd w := by
  refine h s rfl ?_
  split
  · next hwired => exact readReg_of_hardwired hwired
  · rfl

/-- The rule of an instruction that computes `x[rd]` from `x[rd]`; `f` has the state for the free byte alone. -/
theorem Turns.cons (f : State → Word → Word) (p : OtherByte)
    (hexec : ∀ s, s.cfg = c → exec i s = .next (finish (drawOther p s) rd (f s (readReg s rd))))
    (h : ∀ t, Turns c rd is (f t v) w) : Turns c rd (i :: is) v w := by
  rintro s rfl hread
  refine leaves_cons (hexec s rfl) (fun hfree => ?_) (h s)
  rw [hread, hfree, if_neg Bool.false_ne_true]

section Rules

variable {b : Byte}

theorem Turns.xor_self (h : Turns c rd is 0 w) : Turns c rd (.xor rd rd :: is) v w := by
  refine .cons (fun _ x => x ^^^ x) .zero (fun _ _ => rfl) fun _ => ?_
  rwa [BitVec.xor_self]

theorem Turns.andi (h : Turns c rd is (joinBytes 0 (lowByte v &&& b)) w) : Turns c rd (.andi rd b :: is) v w := by
  refine .cons (fun _ x => x &&& zext16 b) .zero (fun _ _ => rfl) fun _ => ?_
  rwa [and_zext16_eq_joinBytes]

theorem Turns.ori (h : Turns c rd is (joinBytes (highByte v) (lowByte v ||| b)) w) :
    Turns c rd (.ori rd b :: is) v w := by
  refine .cons (fun _ x => x ||| zext16 b) .zero (fun _ _ => rfl) fun _ => ?_
  rwa [or_zext16_eq_joinBytes]

theorem Turns.addi (h : Turns c rd is (v + sext16 b) w) : Turns c rd (.addi rd b :: is) v w :=
  .cons (fun _ x => x + sext16 b) .zero (fun _ _ => rfl) fun _ => h

theorem Turns.sl8_self (h : Turns c rd is (joinBytes (lowByte v) 0) w) : Turns c rd (.sl8 rd rd :: is) v w := by
  refine .cons (fun _ x => x <<< 8) .zero (fun _ _ => rfl) fun _ => ?_
  rwa [shiftLeft_eight_eq_joinBytes]

theorem Turns.sr8_self (h : Turns c rd is (joinBytes 0 (highByte v)) w) : Turns c rd (.sr8 rd rd :: is) v w := by
  refine .cons (fun _ x => x >>> 8) .zero (fun _ _ => rfl) fun _ => ?_
  rwa [shiftRight_eight_eq_joinBytes]

/-- `lli` at every reading; the state is the one the free byte is drawn in. -/
theorem Turns.lli (h : ∀ t, Turns c rd is (joinBytes (otherByte c.lliOther t (highByte v)) b) w) :
    Turns c rd (.lli rd b :: is) v w :=
  .cons (fun t x => joinBytes (otherByte c.lliOther t (highByte x)) b) c.lliOther (by rintro s rfl; rfl) h

/-- `lui` at every reading; the state is the one the free byte is drawn in. -/
theorem Turns.lui (h : ∀ t, Turns c rd is (joinBytes b (otherByte c.luiOther t (lowByte v))) w) :
    Turns c rd (.lui rd b :: is) v w :=
  .cons (fun t x => joinBytes b (otherByte c.luiOther t (lowByte x))) c.luiOther (by rintro s rfl; rfl) h

end Rules

/-! ### The values of the idioms (R142) -/

@[simp] theorem highByte_zero : highByte 0#16 = 0#8 := rfl

@[simp] theorem lowByte_zero : lowByte 0#16 = 0#8 := rfl

@[simp] theorem joinBytes_zero_zero : joinBytes 0#8 0#8 = 0#16 := rfl

@[simp] theorem and_0xFF (b : Byte) : b &&& 0xFF#8 = b := BitVec.and_allOnes

theorem otherByte_of_preserve (hp : p = .preserve) (s : State) (old : Byte) : otherByte p s old = old := by
  rw [hp, otherByte]

theorem otherByte_of_zero (hp : p = .zero) (s : State) (old : Byte) : otherByte p s old = 0 := by
  rw [hp, otherByte]
  rfl

/-- A zero byte stays zero where the reading is not arbitrary (R94). -/
theorem otherByte_of_old_zero (hp : p = .preserve ∨ p = .zero) (s : State) : otherByte p s 0#8 = 0#8 := by
  rcases hp with hp | hp
  · exact otherByte_of_preserve hp s _
  · exact otherByte_of_zero hp s _

/-- Inverting and adding one negates (R74, R93). -/
theorem not_add_sext16_one (x : Word) : ~~~x + sext16 1 = BitVec.ofInt 16 (-(x.toNat : Int)) := by
  rw [BitVec.ofInt_neg, ← word_eq_ofInt, BitVec.neg_eq_not_add]
  rfl

/-- A jump over no distance is a self-loop, whatever base and scale make up the zero (R110). -/
theorem exec_j_self {imm : Byte} (h : branchBaseInt s.cfg + branchScaleInt s.cfg * imm.toInt = 0) :
    exec (.j imm) s = .next s := by
  have hself : branchTarget s imm = s.pc := by
    rw [branchTarget_eq_ofInt, add_assoc, h, add_zero, ← word_eq_ofInt]
  rw [exec, execJ, jump_eq_self hself]

/-- Settles O39: the rules of the instructions (`Turns`) one after the other, from whatever `x[rd]` holds. The first
instruction of the load and of the negation reads another register. -/
theorem initialisationIdioms : Obligations.InitialisationIdioms := by
  intro s rd rs hi lo c
  refine ⟨leaves_of_turns ?clearByXor, leaves_of_turns ?clearByAndi, leaves_of_turns ?byteByOri,
    leaves_of_turns ?byteByLli, fun hother => leaves_of_turns ?wordFromZero, leaves_of_turns ?wordByShifts,
    fun hlli hlui => ⟨leaves_of_turns ?lowThenHigh, leaves_of_turns ?highThenLow⟩,
    fun hlui => leaves_of_turns ?highThenOri, fun hlui => leaves_of_turns ?highThenMerge, fun hbacked => ?load, ?negate,
    fun hbase => ?jumpBaseZero, fun hbase hscale => ?jumpScaleOne, fun hbase hscale => ?jumpScaleTwo⟩
  case clearByXor => exact .xor_self (.nil rfl)
  case clearByAndi => exact .andi (.nil (by simp))
  case byteByOri => exact .xor_self (.ori (.nil (by simp)))
  case byteByLli => exact .lli fun _ => .andi (.nil (by simp))
  case wordFromZero => exact .xor_self (.lui fun _ => .ori (.nil (by simp [otherByte_of_old_zero hother])))
  case wordByShifts => exact .lui fun _ => .sr8_self (.sl8_self (.ori (.nil (by simp))))
  case lowThenHigh => exact .lli fun _ => .lui fun _ => .nil (by simp [otherByte_of_preserve hlui])
  case highThenLow => exact .lui fun _ => .lli fun _ => .nil (by simp [otherByte_of_preserve hlli])
  case highThenOri => exact .lui fun _ => .ori (.nil (by simp [otherByte_of_zero hlui]))
  case highThenMerge => exact .lui fun _ => .ori (.nil (by simp [otherByte_of_preserve hlui]))
  case load =>
    exact leaves_cons (exec_lbu_of_backed rd hbacked) (fun _ => rfl) (.andi (.nil (by simp [effectiveAddress])))
  case negate => exact leaves_cons (p := .zero) rfl (fun _ => rfl) (.addi (.nil (not_add_sext16_one _)))
  case jumpBaseZero => exact exec_j_self (by simp [branchBaseInt, hbase])
  case jumpScaleOne => exact exec_j_self (by simp [branchBaseInt, branchScaleInt, hbase, hscale])
  case jumpScaleTwo => exact exec_j_self (by simp [branchBaseInt, branchScaleInt, hbase, hscale])

end Sys2Proof.Machine

namespace Sys2Proof.Machine

/-! ### An instruction repeated in place (95_test_vectors.md section 4) -/

variable {c : Config} {i : Instr} {rd : Reg} {v w : Word}

/-- `n` times an instruction that computes `x[rd]` from `x[rd]` is its function iterated. -/
theorem Turns.replicate {f : Word → Word} {n : Nat} (hexec : ∀ s, exec i s = .next (finish s rd (f (readReg s rd))))
    (h : f^[n] v = w) : Turns c rd (List.replicate n i) v w := by
  induction n generalizing v with
  | zero => exact .nil h
  | succ n ih => exact .cons (fun _ => f) .zero (fun s _ => hexec s) fun _ => ih h

theorem iterate_shiftLeft_one (n : Nat) (w : Word) : (fun x : Word => x <<< 1)^[n] w = w <<< n := by
  induction n with
  | zero => exact (BitVec.shiftLeft_zero w).symm
  | succ n ih => rw [Function.iterate_succ_apply', ih, BitVec.shiftLeft_add]

theorem iterate_shiftRight_one (n : Nat) (w : Word) : (fun x : Word => x >>> 1)^[n] w = w >>> n := by
  induction n with
  | zero => exact (BitVec.ushiftRight_zero w).symm
  | succ n ih => rw [Function.iterate_succ_apply', ih, BitVec.shiftRight_add]

/-- Settles O40: the first instruction puts a value of `x[rs]` into `x[rd]` (`leaves_cons`) and the rest work in place
(`Turns`); the eight places of eight shifts are one byte. -/
theorem repeatedShiftsAndNots : Obligations.RepeatedShiftsAndNots := by
  intro s rd rs
  have hleft := shiftLeft_eight_eq_joinBytes (readReg s rs)
  have hright := shiftRight_eight_eq_joinBytes (readReg s rs)
  refine ⟨leaves_cons (p := .zero) rfl (fun _ => rfl) ?sl, leaves_cons (p := .zero) rfl (fun _ => hleft) (.nil rfl),
    leaves_cons (p := .zero) rfl (fun _ => rfl) ?sr, leaves_cons (p := .zero) rfl (fun _ => hright) (.nil rfl),
    leaves_cons (p := .zero) rfl (fun _ => rfl) ?not,
    leaves_cons (p := .zero) rfl (fun _ => BitVec.sub_self _) (.nil rfl)⟩
  case sl => exact .replicate (f := (· <<< 1)) (fun _ => rfl) ((iterate_shiftLeft_one 8 _).trans hleft)
  case sr => exact .replicate (f := (· >>> 1)) (fun _ => rfl) ((iterate_shiftRight_one 8 _).trans hright)
  case not => exact .replicate (f := (~~~·)) (n := 1) (fun _ => rfl) BitVec.not_not

end Sys2Proof.Machine

namespace Sys2Proof

/-- Settles O1: four of the words are what `encode` gives, and those of `j` and `nop` differ from it in bits the decoder
ignores (O5). -/
theorem workedWordsDecode : Obligations.WorkedWordsDecode := by
  obtain ⟨hnop, hj, -, -⟩ := unusedBitsAreIgnored
  exact ⟨decodeWord_encode (.add 2 1), decodeWord_encode (.addi 1 0xFF#8), decodeWord_encode (.bnez 1 0xFC#8),
    decodeWord_encode (.sw 1 2), hj 5 0x06#8, hnop 7 7⟩

end Sys2Proof
